-- ==== Sys2Proof/Word.lean ====
section
/-! DEFINITION. The word types of the engine (spec 00_scope.md R9, 10_state.md R20, R23, R29).
All values are unsigned; every addition wraps at the type's width. -/

namespace Sys2Proof

/-- A memory byte, a general register, the delay timer, the operand `nn`: 8 bits (R20, R42, R60, R82). -/
abbrev Byte := BitVec 8

/-- A memory address, pc, I, a stack slot's content, the operand `nnn`: 12 bits (R23, R28, R30, R60, R82).
Addition of addresses is modulo `2 ^ 12 = MEM_SIZE` (R25). -/
abbrev Addr := BitVec 12

/-- An instruction word and the opcode register: 16 bits (R29, R80). -/
abbrev Word := BitVec 16

/-- The number of a general register, the operands `x` and `y`: one nibble (R20, R82). -/
abbrev Reg := BitVec 4

/-- The operand `n`: one nibble, a count of sprite rows (R82). -/
abbrev Nibble := BitVec 4

end Sys2Proof
end

