-- ==== Sys2Proof/Config.lean ====
section
/-! DEFINITION. The implementation parameters of spec 00_scope.md R7, fixed at construction.
`Params` names every parameter with its alternatives; `Params.hardware` is the column "this hardware". -/

namespace Sys2Proof

/-- This hardware's `MEM_SIZE` (R7, 20_memory.md R60; decision D1), the one value that R7 admits for the rules as
written: addresses have 12 bits (log entry 4). -/
def memSize : Nat := 4096

/-- `EDGE_POLICY`: what a sprite pixel past the framebuffer edge does (R7, 44_display.md R172; decision D5). -/
inductive EdgePolicy where
  | wrap
  | clip
  | fault
deriving DecidableEq, Repr

/-- `RESERVED_FETCH`: what a fetch from below LOAD_OFFSET does (R7, 40_fetch_dispatch.md R101; decision D10). -/
inductive ReservedFetch where
  | fault
  | execute
deriving DecidableEq, Repr

/-- The parameters of R7. -/
structure Params where
  /-- `MEM_SIZE`, the modulus of every address (20_memory.md R62) and of pc (10_state.md R25). -/
  memSize : Nat
  /-- `LOAD_OFFSET`: where the image is loaded and where pc starts. -/
  loadOffset : Addr
  /-- `STACK_CAPACITY`, K. -/
  stackCapacity : Nat
  /-- `FB_WIDTH`, W. -/
  fbWidth : Nat
  /-- `FB_HEIGHT`, H. -/
  fbHeight : Nat
  edgePolicy : EdgePolicy
  /-- `POP0_CLEARS`: whether a pop at top 0 clears slot 0. -/
  pop0Clears : Bool
  reservedFetch : ReservedFetch
deriving DecidableEq, Repr

/-- The "constraint" column of R7. -/
structure Params.Valid (p : Params) : Prop where
  memSize_eq : p.memSize = 4096
  loadOffset_pos : 0 < p.loadOffset.toNat
  capacity_pos : 1 ≤ p.stackCapacity
  width_pos : 1 ≤ p.fbWidth
  height_pos : 1 ≤ p.fbHeight

/-- The column "this hardware" of R7 (decisions D1, D2, D5, D6, D7, D8, D10; log entry 19). -/
def Params.hardware : Params where
  memSize := Sys2Proof.memSize
  loadOffset := 0x200#12
  stackCapacity := 16
  fbWidth := 64
  fbHeight := 32
  edgePolicy := .wrap
  pop0Clears := false
  reservedFetch := .fault

end Sys2Proof
end

