-- ==== Sys2Proof/Syntax.lean ====
section
/-! DEFINITION. The instruction terms of spec 40_fetch_dispatch.md R104, one constructor per row of the
opcode table (30_encoding.md R84). -/

namespace Sys2Proof

/-- An instruction term. Register operands are nibbles, so every register number is legal (R82). -/
inductive Instr where
  /-- 0x00E0 clear-screen -/
  | clearScreen
  /-- 0x00EE return -/
  | ret
  /-- 0x1nnn jump -/
  | jump (nnn : Addr)
  /-- 0x2nnn call -/
  | call (nnn : Addr)
  /-- 0x3xnn skip-eq-imm -/
  | skipEqImm (x : Reg) (nn : Byte)
  /-- 0x4xnn skip-ne-imm -/
  | skipNeImm (x : Reg) (nn : Byte)
  /-- 0x5xy0 skip-eq-reg -/
  | skipEqReg (x y : Reg)
  /-- 0x9xy0 skip-ne-reg -/
  | skipNeReg (x y : Reg)
  /-- 0x6xnn set-imm -/
  | setImm (x : Reg) (nn : Byte)
  /-- 0x7xnn add-imm -/
  | addImm (x : Reg) (nn : Byte)
  /-- 0xAnnn set-index -/
  | setIndex (nnn : Addr)
  /-- 0x8xy0 move -/
  | move (x y : Reg)
  /-- 0x8xy1 or -/
  | or (x y : Reg)
  /-- 0x8xy2 and -/
  | and (x y : Reg)
  /-- 0x8xy3 xor -/
  | xor (x y : Reg)
  /-- 0x8xy4 add-carry -/
  | addCarry (x y : Reg)
  /-- 0xDxyn draw -/
  | draw (x y : Reg) (n : Nibble)
  /-- Any word that matches no named row; the term carries the word (R87, R104). -/
  | unrecognised (w : Word)
deriving DecidableEq, Repr

/-- The table's mnemonic of a term's row, letter for letter (30_encoding.md R84). -/
def Instr.mnemonic : Instr → String
  | .clearScreen => "clear-screen"
  | .ret => "return"
  | .jump _ => "jump"
  | .call _ => "call"
  | .skipEqImm _ _ => "skip-eq-imm"
  | .skipNeImm _ _ => "skip-ne-imm"
  | .skipEqReg _ _ => "skip-eq-reg"
  | .skipNeReg _ _ => "skip-ne-reg"
  | .setImm _ _ => "set-imm"
  | .addImm _ _ => "add-imm"
  | .setIndex _ => "set-index"
  | .move _ _ => "move"
  | .or _ _ => "or"
  | .and _ _ => "and"
  | .xor _ _ => "xor"
  | .addCarry _ _ => "add-carry"
  | .draw _ _ _ => "draw"
  | .unrecognised _ => "(unrecognised)"

end Sys2Proof
end

