-- ==== Sys2Proof/WellFormed.lean ====
section
/-! DEFINITION. The opcode table of spec 30_encoding.md R84 (match and mask) and what makes a term well-formed.
The table is written from R84 and shares nothing with the decoder, which is written from R104; that the two
agree is a statement (Obligations.DecodeAgreesWithOpcodeTable). -/

namespace Sys2Proof

/-- A named row of the opcode table: a word `w` selects it when `w AND mask = match` (R84). -/
structure Row where
  mnemonic : String
  bits : Word
  mask : Word
deriving DecidableEq, Repr

/-- `(w AND mask) = match` (R84). -/
def Row.selects (r : Row) (w : Word) : Bool := (w &&& r.mask) == r.bits

/-- The 17 named rows, in the table's order (R84). -/
def opcodeTable : List Row := [
  ⟨"clear-screen", 0x00E0, 0xFFFF⟩,
  ⟨"return", 0x00EE, 0xFFFF⟩,
  ⟨"jump", 0x1000, 0xF000⟩,
  ⟨"call", 0x2000, 0xF000⟩,
  ⟨"skip-eq-imm", 0x3000, 0xF000⟩,
  ⟨"skip-ne-imm", 0x4000, 0xF000⟩,
  ⟨"skip-eq-reg", 0x5000, 0xF00F⟩,
  ⟨"skip-ne-reg", 0x9000, 0xF00F⟩,
  ⟨"set-imm", 0x6000, 0xF000⟩,
  ⟨"add-imm", 0x7000, 0xF000⟩,
  ⟨"set-index", 0xA000, 0xF000⟩,
  ⟨"move", 0x8000, 0xF00F⟩,
  ⟨"or", 0x8001, 0xF00F⟩,
  ⟨"and", 0x8002, 0xF00F⟩,
  ⟨"xor", 0x8003, 0xF00F⟩,
  ⟨"add-carry", 0x8004, 0xF00F⟩,
  ⟨"draw", 0xD000, 0xF000⟩]

/-- A recognised word matches a named row (R83, glossary "Unrecognised word"). -/
def recognised (w : Word) : Bool := opcodeTable.any fun r => r.selects w

/-- The one check on terms: `unrecognised w` carries a word that no named row matches (R104). Every operand of
every named row is legal at every value of its field (R82, R87). -/
def Instr.wf : Instr → Bool
  | .clearScreen => true
  | .ret => true
  | .jump _ => true
  | .call _ => true
  | .skipEqImm _ _ => true
  | .skipNeImm _ _ => true
  | .skipEqReg _ _ => true
  | .skipNeReg _ _ => true
  | .setImm _ _ => true
  | .addImm _ _ => true
  | .setIndex _ => true
  | .move _ _ => true
  | .or _ _ => true
  | .and _ _ => true
  | .xor _ _ => true
  | .addCarry _ _ => true
  | .draw _ _ _ => true
  | .unrecognised w => !recognised w

end Sys2Proof
end

