-- ==== Sys2Proof/Decode.lean ====
section
/-! DEFINITION. Field extraction (spec 30_encoding.md R81, 40_fetch_dispatch.md R103), the decoder (R104), the
encoder (R84), and the byte order of an instruction in memory (20_memory.md R65). -/

namespace Sys2Proof

/-! ### Fields (R81, R103) -/

/-- N0, `w[15:12]`. -/
def fieldN0 (w : Word) : Nibble := w.extractLsb' 12 4

/-- N1 = x, `w[11:8]`. -/
def fieldX (w : Word) : Reg := w.extractLsb' 8 4

/-- N2 = y, `w[7:4]`. -/
def fieldY (w : Word) : Reg := w.extractLsb' 4 4

/-- N3 = n, `w[3:0]`. -/
def fieldN (w : Word) : Nibble := w.extractLsb' 0 4

/-- nn, `w[7:0]`. -/
def fieldNN (w : Word) : Byte := w.extractLsb' 0 8

/-- nnn, `w[11:0]`. -/
def fieldNNN (w : Word) : Addr := w.extractLsb' 0 12

/-! ### Decode (R104) -/

/-- `Decode(w)`, total on every word, in the order of R104. -/
def decodeWord (w : Word) : Instr :=
  if w = 0x00E0#16 then .clearScreen
  else if w = 0x00EE#16 then .ret
  else if fieldN0 w = 0x1#4 then .jump (fieldNNN w)
  else if fieldN0 w = 0x2#4 then .call (fieldNNN w)
  else if fieldN0 w = 0x3#4 then .skipEqImm (fieldX w) (fieldNN w)
  else if fieldN0 w = 0x4#4 then .skipNeImm (fieldX w) (fieldNN w)
  else if fieldN0 w = 0x5#4 ∧ fieldN w = 0x0#4 then .skipEqReg (fieldX w) (fieldY w)
  else if fieldN0 w = 0x9#4 ∧ fieldN w = 0x0#4 then .skipNeReg (fieldX w) (fieldY w)
  else if fieldN0 w = 0x6#4 then .setImm (fieldX w) (fieldNN w)
  else if fieldN0 w = 0x7#4 then .addImm (fieldX w) (fieldNN w)
  else if fieldN0 w = 0xA#4 then .setIndex (fieldNNN w)
  else if fieldN0 w = 0x8#4 ∧ fieldN w = 0x0#4 then .move (fieldX w) (fieldY w)
  else if fieldN0 w = 0x8#4 ∧ fieldN w = 0x1#4 then .or (fieldX w) (fieldY w)
  else if fieldN0 w = 0x8#4 ∧ fieldN w = 0x2#4 then .and (fieldX w) (fieldY w)
  else if fieldN0 w = 0x8#4 ∧ fieldN w = 0x3#4 then .xor (fieldX w) (fieldY w)
  else if fieldN0 w = 0x8#4 ∧ fieldN w = 0x4#4 then .addCarry (fieldX w) (fieldY w)
  else if fieldN0 w = 0xD#4 then .draw (fieldX w) (fieldY w) (fieldN w)
  else .unrecognised w

/-- Two bytes in memory order make a word: the byte at the lower address is `w[15:8]` (R65). -/
def wordOfBytes (hi lo : Byte) : Word := hi ++ lo

/-- Why a list of bytes holds no instruction: every instruction is 2 bytes long (R80), so fewer than two bytes
are no instruction. No pair of bytes is refused (R87). DESIGN CHOICE, safe (log entry 12). -/
inductive DecodeError where
  | needsTwoBytes
deriving DecidableEq, Repr

/-- The instruction at the front of a list of bytes in memory order, and the bytes after it. -/
def decode : List Byte → Except DecodeError (Instr × List Byte)
  | hi :: lo :: rest => .ok (decodeWord (wordOfBytes hi lo), rest)
  | [_] => .error .needsTwoBytes
  | [] => .error .needsTwoBytes

/-! ### Encode (R84) -/

/-- The word 0xNxyn from its four nibbles (R81). -/
def wordOfNibbles (n0 x y n : Nibble) : Word := (n0 ++ x) ++ (y ++ n)

/-- The word 0xNxnn (R81). -/
def wordOfImm (n0 : Nibble) (x : Reg) (nn : Byte) : Word := (n0 ++ x) ++ nn

/-- The word 0xNnnn (R81). -/
def wordOfAddr (n0 : Nibble) (nnn : Addr) : Word := n0 ++ nnn

/-- The word of a term, from the patterns of R84. An unrecognised term is its own word. -/
def encode : Instr → Word
  | .clearScreen => 0x00E0#16
  | .ret => 0x00EE#16
  | .jump nnn => wordOfAddr 0x1#4 nnn
  | .call nnn => wordOfAddr 0x2#4 nnn
  | .skipEqImm x nn => wordOfImm 0x3#4 x nn
  | .skipNeImm x nn => wordOfImm 0x4#4 x nn
  | .skipEqReg x y => wordOfNibbles 0x5#4 x y 0x0#4
  | .skipNeReg x y => wordOfNibbles 0x9#4 x y 0x0#4
  | .setImm x nn => wordOfImm 0x6#4 x nn
  | .addImm x nn => wordOfImm 0x7#4 x nn
  | .setIndex nnn => wordOfAddr 0xA#4 nnn
  | .move x y => wordOfNibbles 0x8#4 x y 0x0#4
  | .or x y => wordOfNibbles 0x8#4 x y 0x1#4
  | .and x y => wordOfNibbles 0x8#4 x y 0x2#4
  | .xor x y => wordOfNibbles 0x8#4 x y 0x3#4
  | .addCarry x y => wordOfNibbles 0x8#4 x y 0x4#4
  | .draw x y n => wordOfNibbles 0xD#4 x y n
  | .unrecognised w => w

/-- A word's two bytes in memory order: `w[15:8]` first (R65). -/
def bytesOfWord (w : Word) : List Byte := [w.extractLsb' 8 8, w.extractLsb' 0 8]

/-- The bytes of a term in memory order. -/
def encodeBytes (i : Instr) : List Byte := bytesOfWord (encode i)

/-! ### The host's view of the opcode table -/

/-- The word whose low `nbits` bits are `w`'s: a row of the table has 16 bits, and a number's bits above `nbits`
are not the row's (log entry 13). -/
def tableWord (nbits w : Nat) : Word := BitVec.ofNat 16 (w % 2 ^ nbits)

/-- What the decoder reads from the word that spec/opcode_table.json numbers as `w`, laid out in memory order. -/
def decodeTableWord (nbits w : Nat) : Option Instr :=
  match decode (bytesOfWord (tableWord nbits w)) with
  | .ok (i, _) => some i
  | .error _ => none

end Sys2Proof
end

