-- ==== Sys2Proof/Machine/State.lean ====
section
/-! DEFINITION. The engine's state (spec 10_state.md, 20_memory.md R60) as plain data, the reasons an operation
can stop, and the state after reset (70_reset_and_hazards.md R210). -/

namespace Sys2Proof.Machine

/-- The fault kinds (10_state.md R43, 60_exceptions.md R191). An operation RAISES one by setting the field
`fault` of the state (R190), and answers that next state; from then on `fetch` and `execute` answer
`Outcome.fault` with the recorded kind (40_fetch_dispatch.md R109). -/
inductive Fault where
  /-- Raised by return when Pop gives none (41_control.md R120). Safe: the original software goes on with a stale
  or zero pc (decision D9), this hardware stops. -/
  | stackUnderflow
  /-- Raised by a fetch that touches an address below LOAD_OFFSET when RESERVED_FETCH = Fault
  (40_fetch_dispatch.md R101). Safe: the original most likely goes on (decision D10). -/
  | reservedFetch
  /-- Raised by draw when EDGE_POLICY = Fault and a set sprite bit lands past an edge (44_display.md R172), so
  never on this hardware. Safe. -/
  | drawOutOfRange
deriving DecidableEq, Repr

/-- Why an operation is not admitted. No instruction answers a refusal. -/
inductive Refusal where
  /-- Raised by an arm of `exec` whose instruction has no meaning in this model yet. Safe. No arm does. -/
  | notModelled (mnemonic : String)
  /-- Raised by the host's `load` of an image longer than MEM_SIZE - LOAD_OFFSET (70_reset_and_hazards.md R215).
  Safe: the spec refuses it too. -/
  | imageTooLong
  /-- Raised by the host's `fb_set` at a coordinate outside the grid (70_reset_and_hazards.md R219;
  93_implementation_defined.md U9). Safe: the spec admits no such call. -/
  | pixelOutOfRange
deriving DecidableEq, Repr

/-- Memory: a list of (address, byte), addresses strictly rising and below MEM_SIZE, no entry equal to the
byte 0x00 that an unlisted address reads as (`Memory.wf`; 20_memory.md R60, R61). -/
abbrev Memory := List Host.Cell

/-- The call stack (10_state.md R30). -/
structure CallStack where
  /-- `slot[0..K-1]`; `none` is the spec's `empty`, which is distinct from address 0. -/
  slot : List (Option Addr)
  /-- The write cursor, in 0..K-1. -/
  top : Nat
deriving DecidableEq, Repr

/-- The framebuffer (10_state.md R36). -/
structure Framebuffer where
  /-- `pix[px][py]`: W columns of H pixels, the first coordinate outermost (decision D22; log entry 16). -/
  pix : List (List Bool)
  dirty : Bool
deriving DecidableEq, Repr

/-- The complete state (10_state.md R44, R45). -/
structure State where
  /-- V0..VF (R20); VF, index 0xF, is also the flags register (R21). -/
  v : Vector Byte 16
  /-- The program counter (R23). -/
  pc : Addr
  /-- The index register I (R28). -/
  i : Addr
  /-- The opcode register (R29). -/
  opcode : Word
  /-- The delay timer DT (R42). -/
  dt : Byte
  /-- The call stack (R30). -/
  stack : CallStack
  /-- The framebuffer (R36). -/
  fb : Framebuffer
  /-- Memory (20_memory.md R60). -/
  mem : Memory
  /-- The sticky fault (R43). -/
  fault : Option Fault
deriving DecidableEq, Repr

/-- What the operations of the engine and of the host answer. -/
abbrev Result := Host.Outcome State Fault Refusal

/-- "an empty Stack": every slot empty, top = 0 (R30). -/
def CallStack.empty (capacity : Nat) : CallStack := ⟨List.replicate capacity none, 0⟩

/-- Every pixel 0, W columns of H pixels. -/
def blankPixels (width height : Nat) : List (List Bool) :=
  List.replicate width (List.replicate height false)

/-- The state right after creation, before any image is loaded (70_reset_and_hazards.md R210, 10_state.md R45),
for any parameters (log entry 3). -/
def State.resetWith (p : Params) : State where
  v := Vector.replicate 16 0x00#8
  pc := p.loadOffset
  i := 0x000#12
  opcode := 0x0000#16
  dt := 0x00#8
  stack := .empty p.stackCapacity
  fb := ⟨blankPixels p.fbWidth p.fbHeight, false⟩
  mem := []
  fault := none

/-- The state right after reset of this hardware (R210). -/
def State.reset : State := State.resetWith Params.hardware

end Sys2Proof.Machine
end

