-- ==== Sys2Proof/Machine/Ops.lean ====
section
/-! DEFINITION. The named operations over memory (spec 20_memory.md), the named updates of single registers, and
RAISING A FAULT (60_exceptions.md R190), the one way an operation stops the engine. -/

namespace Sys2Proof.Machine

/-! ### Memory (20_memory.md R60 to R66) -/

/-- What an address that nothing has written reads as: 0x00 (20_memory.md R61; decision D11; log entry 14). -/
def Memory.unlisted : Byte := 0x00#8

/-- The byte listed at exactly this key, else `unlisted`. -/
def Memory.byteAt : Memory → Nat → Byte
  | [], _ => Memory.unlisted
  | (k, c) :: m, a => if k = a then c else Memory.byteAt m a

/-- Put a byte at exactly this key, keeping the canonical form: addresses strictly rising, and writing `unlisted`
removes the entry. -/
def Memory.putAt : Memory → Nat → Byte → Memory
  | [], a, b => if b = Memory.unlisted then [] else [(a, b)]
  | (k, c) :: m, a, b =>
    if a < k then (if b = Memory.unlisted then (k, c) :: m else (a, b) :: (k, c) :: m)
    else if a = k then (if b = Memory.unlisted then m else (a, b) :: m)
    else (k, c) :: Memory.putAt m a b

/-- `MemRead(a, 1)`: the byte at `a mod MEM_SIZE` (R11, R62). `size` is MEM_SIZE, this hardware's unless said. -/
def Memory.read (m : Memory) (a : Nat) (size : Nat := memSize) : Byte := m.byteAt (a % size)

/-- `MemWrite(a, 1, b)` (R11, R62). -/
def Memory.write (m : Memory) (a : Nat) (b : Byte) (size : Nat := memSize) : Memory := m.putAt (a % size) b

/-- Write bytes at consecutive addresses from `a` on, in order (70_reset_and_hazards.md R214). -/
def Memory.writeBytes (m : Memory) (a : Nat) (bytes : List Byte) (size : Nat := memSize) : Memory :=
  match bytes with
  | [] => m
  | b :: bs => (m.write a b size).writeBytes (a + 1) bs size

/-- The canonical form from the address `lo` on. -/
def Memory.wfFrom : Nat → Memory → Bool
  | _, [] => true
  | lo, (k, c) :: m => decide (lo ≤ k) && decide (k < memSize) && (c != Memory.unlisted) && Memory.wfFrom (k + 1) m

/-- The canonical form: addresses strictly rising and below MEM_SIZE (12-bit addresses), no entry equal to `unlisted`. -/
def Memory.wf (m : Memory) : Bool := Memory.wfFrom 0 m

/-! ### Updates of one register each -/

/-- `V` as a whole; a single register is written by `State.writeReg`. -/
def State.setV (s : State) (v : Vector Byte 16) : State := { s with v := v }

/-- `pc <- a` (R11). -/
def State.setPc (s : State) (a : Addr) : State := { s with pc := a }

/-- `I <- a` (R11). -/
def State.setI (s : State) (a : Addr) : State := { s with i := a }

/-- `opcode <- w` (R11). -/
def State.setOpcode (s : State) (w : Word) : State := { s with opcode := w }

/-- `DT <- b` (R11). -/
def State.setDt (s : State) (b : Byte) : State := { s with dt := b }

/-- The stack after a push or a pop. -/
def State.setStack (s : State) (k : CallStack) : State := { s with stack := k }

/-- The framebuffer after a clear, a draw or a flush. -/
def State.setFb (s : State) (f : Framebuffer) : State := { s with fb := f }

/-- Memory after a load. -/
def State.setMem (s : State) (m : Memory) : State := { s with mem := m }

/-- The field `fault` (R43). -/
def State.setFault (s : State) (f : Option Fault) : State := { s with fault := f }

/-! ### Faults (60_exceptions.md R190, 40_fetch_dispatch.md R109) -/

/-- `raise Fault(kind)`: the state before the faulting operation with `fault` set, and no other change (R190).
It is a next state, which the host can read; the engine has no step from it (`whenRunning`). DEDUCED
(log entry 1). -/
def raiseFault (kind : Fault) (s : State) : Result := .next (s.setFault (some kind))

/-- A faulted engine has no step (R109): fetch and execute run only while `fault = none`, and otherwise answer
the recorded kind, with no successor state. -/
def whenRunning (s : State) (operation : State → Result) : Result :=
  match s.fault with
  | none => operation s
  | some kind => .fault kind

end Sys2Proof.Machine
end

