-- ==== Sys2Proof/Machine/Operands.lean ====
section
/-! DEFINITION. The operand forms of the instructions: a general register read or written (spec 10_state.md R20,
00_scope.md R11) and the pc increment of fetch and of the skips (R25). Immediates are used as they stand (R82). -/

namespace Sys2Proof.Machine

/-- The index of VF, the flags register (10_state.md R21). -/
abbrev regF : Reg := 0xF#4

/-- `V[r]` (R11). No register is hardwired (R20). -/
def State.readReg (s : State) (r : Reg) : Byte := s.v[r.toNat]'r.isLt

/-- `V[r] <- b` (R11). -/
def State.writeReg (s : State) (r : Reg) (b : Byte) : State := s.setV (s.v.set r.toNat b r.isLt)

/-- `(pc + 2) mod MEM_SIZE` (R25). On this hardware it is 12-bit addition (Laws: nextPc_eq). -/
def nextPc (pc : Addr) (size : Nat := memSize) : Addr := BitVec.ofNat 12 ((pc.toNat + 2) % size)

/-- A skip: `if taken then pc <- (pc + 2) mod MEM_SIZE` (41_control.md R127). -/
def State.skipIf (s : State) (taken : Bool) (size : Nat := memSize) : State :=
  if taken then s.setPc (nextPc s.pc size) else s

end Sys2Proof.Machine
end

