-- ==== Sys2Proof/Machine/Flags.lean ====
section
/-! DEFINITION. The flag computations: VF takes 0x00 or 0x01 as a whole byte (spec 10_state.md R21). Only
add-carry and draw compute one (R22). -/

namespace Sys2Proof.Machine

/-- A flag value, written as a whole byte (R21). -/
def flagByte (b : Bool) : Byte := if b then 0x01#8 else 0x00#8

/-- The exact sum of two registers, 0..510 (43_alu.md R155). -/
def exactSum (a b : Byte) : Nat := a.toNat + b.toNat

/-- `sum mod 256` (R155; also add-imm's wrapped sum, 42_immediate_index.md R141). -/
def wrappedSum (a b : Byte) : Byte := BitVec.ofNat 8 (exactSum a b)

/-- The carry of add-carry: 0x01 iff `sum >= 256` (R155). -/
def carryFlag (a b : Byte) : Byte := flagByte (decide (256 ≤ exactSum a b))

/-- Draw's collision flag is sticky: once 0x01 it stays, and a set sprite bit over a pixel that reads 1 sets it
(44_display.md R174). -/
def collisionFlag (before : Byte) (pixel : Bool) : Byte := if pixel then flagByte true else before

end Sys2Proof.Machine
end

