-- ==== Sys2Proof/Machine/Alu.lean ====
section
/-! DEFINITION. Register-to-register ALU instructions (spec 43_alu.md). Only add-carry writes VF as a side
effect; move, or, and, xor do not (R154). -/

namespace Sys2Proof.Machine

/-- move: 0x8xy0 (R150). -/
def execMove (x y : Reg) (s : State) : Result := .next (s.writeReg x (s.readReg y))

/-- or: 0x8xy1 (R151). -/
def execOr (x y : Reg) (s : State) : Result := .next (s.writeReg x (s.readReg x ||| s.readReg y))

/-- and: 0x8xy2 (R152). -/
def execAnd (x y : Reg) (s : State) : Result := .next (s.writeReg x (s.readReg x &&& s.readReg y))

/-- xor: 0x8xy3 (R153). -/
def execXor (x y : Reg) (s : State) : Result := .next (s.writeReg x (s.readReg x ^^^ s.readReg y))

/-- add-carry: 0x8xy4 (R155). Both operands are read first; V[x] is written, then VF, so with x = 0xF the carry
stays (decision D14). -/
def execAddCarry (x y : Reg) (s : State) : Result :=
  .next ((s.writeReg x (wrappedSum (s.readReg x) (s.readReg y))).writeReg regF
    (carryFlag (s.readReg x) (s.readReg y)))

end Sys2Proof.Machine
end

