-- ==== Sys2Proof/Machine/Stack.lean ====
section
/-! DEFINITION. The call stack's two operations (spec 10_state.md R31, R32). -/

namespace Sys2Proof.Machine

/-- `Push(v)`: `slot[top] <- v`, then `top <- (top + 1) mod K`. Wrapping is no error (R31). -/
def CallStack.push (p : Params) (k : CallStack) (a : Addr) : CallStack :=
  ⟨k.slot.set k.top (some a), (k.top + 1) % p.stackCapacity⟩

/-- What a slot holds; a slot outside 0..K-1 does not exist and reads as empty (no pop reaches one while
`top < K`). -/
def CallStack.slotAt (k : CallStack) (j : Nat) : Option Addr := (k.slot[j]?).join

/-- `Pop()` (R32): at top = 0 slot 0 is read, and cleared only when POP0_CLEARS; otherwise top moves down one and
that slot is read and cleared. -/
def CallStack.pop (p : Params) (k : CallStack) : Option Addr × CallStack :=
  if k.top = 0 then
    (k.slotAt 0, if p.pop0Clears then ⟨k.slot.set 0 none, 0⟩ else k)
  else
    (k.slotAt (k.top - 1), ⟨k.slot.set (k.top - 1) none, k.top - 1⟩)

/-- Pushes in order, the list's head first (R35). -/
def CallStack.pushAll (p : Params) (k : CallStack) (as : List Addr) : CallStack := as.foldl (CallStack.push p) k

/-- `count` pops in order: what each returned, and the stack after them (R35). -/
def CallStack.popMany (p : Params) : Nat → CallStack → List (Option Addr) × CallStack
  | 0, k => ([], k)
  | n + 1, k =>
    let (r, k1) := k.pop p
    let (rs, k2) := CallStack.popMany p n k1
    (r :: rs, k2)

end Sys2Proof.Machine
end

