-- ==== Sys2Proof/Machine/Control.lean ====
section
/-! DEFINITION. Control transfer (spec 41_control.md). Fetch has already moved pc past the instruction
(00_scope.md R12). -/

namespace Sys2Proof.Machine

/-- return, for any parameters (R120): pc takes what Pop gives; when Pop gives none the engine faults, precisely,
from the state before the instruction (60_exceptions.md R190; log entry 5). -/
def returnWith (p : Params) (s : State) : Result :=
  match s.stack.pop p with
  | (none, _) => raiseFault .stackUnderflow s
  | (some a, k) => .next ((s.setStack k).setPc a)

/-- call, for any parameters (R122): `Push(pc)`, then `pc <- nnn`. -/
def callWith (p : Params) (nnn : Addr) (s : State) : Result :=
  .next ((s.setStack (s.stack.push p s.pc)).setPc nnn)

/-- skip-eq-imm, for any parameters (R123). -/
def skipEqImmWith (p : Params) (x : Reg) (nn : Byte) (s : State) : Result :=
  .next (s.skipIf (s.readReg x == nn) p.memSize)

/-- skip-ne-imm, for any parameters (R124). -/
def skipNeImmWith (p : Params) (x : Reg) (nn : Byte) (s : State) : Result :=
  .next (s.skipIf (s.readReg x != nn) p.memSize)

/-- skip-eq-reg, for any parameters (R125). -/
def skipEqRegWith (p : Params) (x y : Reg) (s : State) : Result :=
  .next (s.skipIf (s.readReg x == s.readReg y) p.memSize)

/-- skip-ne-reg, for any parameters (R126). -/
def skipNeRegWith (p : Params) (x y : Reg) (s : State) : Result :=
  .next (s.skipIf (s.readReg x != s.readReg y) p.memSize)

/-- return: 0x00EE (R120). -/
def execReturn (s : State) : Result := returnWith Params.hardware s

/-- jump: 0x1nnn (R121). -/
def execJump (nnn : Addr) (s : State) : Result := .next (s.setPc nnn)

/-- call: 0x2nnn (R122). -/
def execCall (nnn : Addr) (s : State) : Result := callWith Params.hardware nnn s

/-- skip-eq-imm: 0x3xnn (R123). -/
def execSkipEqImm (x : Reg) (nn : Byte) (s : State) : Result := skipEqImmWith Params.hardware x nn s

/-- skip-ne-imm: 0x4xnn (R124). -/
def execSkipNeImm (x : Reg) (nn : Byte) (s : State) : Result := skipNeImmWith Params.hardware x nn s

/-- skip-eq-reg: 0x5xy0 (R125). -/
def execSkipEqReg (x y : Reg) (s : State) : Result := skipEqRegWith Params.hardware x y s

/-- skip-ne-reg: 0x9xy0 (R126). -/
def execSkipNeReg (x y : Reg) (s : State) : Result := skipNeRegWith Params.hardware x y s

end Sys2Proof.Machine
end

