-- ==== Sys2Proof/Machine/Pixels.lean ====
section
/-! DEFINITION. The framebuffer's operations (spec 10_state.md R37 to R41) and the parts of the draw algorithm
(44_display.md R171 to R175). -/

namespace Sys2Proof.Machine

/-! ### Framebuffer operations -/

/-- `FbGet(px, py)` (R37). A coordinate outside the grid has no pixel; the core never asks for one
(log entry 6). -/
def Framebuffer.get (f : Framebuffer) (px py : Nat) : Bool := ((f.pix[px]?.getD [])[py]?).getD false

/-- `FbToggle(px, py)`: the pixel XOR 1; dirty is not touched (R38). -/
def Framebuffer.toggle (f : Framebuffer) (px py : Nat) : Framebuffer :=
  { f with pix := f.pix.modify px fun column => column.modify py fun b => !b }

/-- `FbMarkDirty()` (R40). -/
def Framebuffer.markDirty (f : Framebuffer) : Framebuffer := { f with dirty := true }

/-- `FbClear()`: every pixel 0, then dirty 1 (R39). -/
def Framebuffer.clear (p : Params) (f : Framebuffer) : Framebuffer :=
  { f with pix := blankPixels p.fbWidth p.fbHeight }.markDirty

/-- `set(px, py, v)`, the host's test operation; dirty is not touched (R41, 70_reset_and_hazards.md R219). -/
def Framebuffer.setPixel (f : Framebuffer) (px py : Nat) (b : Bool) : Framebuffer :=
  { f with pix := f.pix.modify px fun column => column.set py b }

/-! ### Draw (44_display.md R171) -/

/-- Sprite bit index `b` counts from the most significant bit: `s[7-b]` (00_scope.md R10). -/
def spriteBit (s : Byte) (b : Nat) : Bool := s.getLsbD (7 - b)

/-- The set bits of sprite row `r`, bit index ascending, as coordinates before the edge policy:
`(vx + b, vy + r)` for each set bit of the byte at `(I + r) mod MEM_SIZE` (R171, R173); `size` is MEM_SIZE. -/
def rowBits (size : Nat) (m : Memory) (i : Addr) (vx vy r : Nat) : List (Nat × Nat) :=
  (List.range 8).filterMap fun b =>
    if spriteBit (m.read (i.toNat + r) size) b then some (vx + b, vy + r) else none

/-- The set bits of a sprite of `n` rows, row ascending (R171 corner case f). -/
def spriteBits (size : Nat) (m : Memory) (i : Addr) (vx vy n : Nat) : List (Nat × Nat) :=
  (List.range n).flatMap (rowBits size m i vx vy)

/-- Whether a coordinate lies past the right or bottom edge. -/
def offGrid (p : Params) (c : Nat × Nat) : Bool := decide (p.fbWidth ≤ c.1) || decide (p.fbHeight ≤ c.2)

/-- `OffEdge(vx, vy, n)`: some set sprite bit lands outside the grid (R172). -/
def offEdge (p : Params) (bits : List (Nat × Nat)) : Bool := bits.any (offGrid p)

/-- `Target(cx, cy)` (R172); `none` is the spec's `off`. -/
def drawTarget (p : Params) (c : Nat × Nat) : Option (Nat × Nat) :=
  match p.edgePolicy with
  | .wrap => some (c.1 % p.fbWidth, c.2 % p.fbHeight)
  | .clip => if offGrid p c then none else some c
  | .fault => some c

/-- What the draw loop changes: the framebuffer and the collision flag. -/
structure Canvas where
  fb : Framebuffer
  vf : Byte
deriving DecidableEq, Repr

/-- One set sprite bit that has a target: test the pixel, then toggle it (R171, R174). -/
def plot (c : Canvas) (t : Nat × Nat) : Canvas :=
  ⟨c.fb.toggle t.1 t.2, collisionFlag c.vf (c.fb.get t.1 t.2)⟩

/-- The draw loop over the set sprite bits in their order; VF starts at 0x00 (R171). -/
def plotAll (p : Params) (f : Framebuffer) (bits : List (Nat × Nat)) : Canvas :=
  (bits.filterMap (drawTarget p)).foldl plot ⟨f, flagByte false⟩

end Sys2Proof.Machine
end

