-- ==== Sys2Proof/Machine/Display.lean ====
section
/-! DEFINITION. Display instructions (spec 44_display.md) and the no-op of unrecognised words
(40_fetch_dispatch.md R106). -/

namespace Sys2Proof.Machine

/-- clear-screen, for any parameters (R170). -/
def clearScreenWith (p : Params) (s : State) : Result := .next (s.setFb (s.fb.clear p))

/-- The set sprite bits a draw of `n` rows at the origin registers `x`, `y` would plot: the origin is
`(V[x] mod W, V[y] mod H)`, read before VF is cleared (R171). -/
def drawBits (p : Params) (x y : Reg) (n : Nibble) (s : State) : List (Nat × Nat) :=
  spriteBits p.memSize s.mem s.i ((s.readReg x).toNat % p.fbWidth) ((s.readReg y).toNat % p.fbHeight) n.toNat

/-- draw, for any parameters (R171): the edge check first under EDGE_POLICY = Fault (R172); then the loop, VF as
the loop leaves it, and dirty set, whatever was drawn (R175). No step of the loop reads VF other than to keep it
sticky, so VF is written once, after the loop. DEDUCED (log entry 17). -/
def drawWith (p : Params) (x y : Reg) (n : Nibble) (s : State) : Result :=
  if p.edgePolicy = .fault ∧ offEdge p (drawBits p x y n s) = true then raiseFault .drawOutOfRange s
  else
    let c := plotAll p s.fb (drawBits p x y n s)
    .next ((s.writeReg regF c.vf).setFb c.fb.markDirty)

/-- clear-screen: 0x00E0 (R170). -/
def execClearScreen (s : State) : Result := clearScreenWith Params.hardware s

/-- draw: 0xDxyn (R171). -/
def execDraw (x y : Reg) (n : Nibble) (s : State) : Result := drawWith Params.hardware x y n s

/-- Any other word: silently consumed, no state changes (R106). -/
def execUnrecognised (_w : Word) (s : State) : Result := .next s

end Sys2Proof.Machine
end

