-- ==== Sys2Proof/Machine/Immediate.lean ====
section
/-! DEFINITION. Immediate and index instructions (spec 42_immediate_index.md). -/

namespace Sys2Proof.Machine

/-- set-imm: 0x6xnn (R140). -/
def execSetImm (x : Reg) (nn : Byte) (s : State) : Result := .next (s.writeReg x nn)

/-- add-imm: 0x7xnn, no flag (R141). -/
def execAddImm (x : Reg) (nn : Byte) (s : State) : Result := .next (s.writeReg x (wrappedSum (s.readReg x) nn))

/-- set-index: 0xAnnn (R142). -/
def execSetIndex (nnn : Addr) (s : State) : Result := .next (s.setI nnn)

end Sys2Proof.Machine
end

