-- ==== Sys2Proof/Machine/Cycle.lean ====
section
/-! DEFINITION. Fetch, execute and the cycle (spec 40_fetch_dispatch.md R100 to R109), for any parameters, and the
dispatch of R105 for any parameters. Step.lean calls these with this hardware's parameters. -/

namespace Sys2Proof.Machine

/-- Whether a fetch at `pc` touches the reserved region and RESERVED_FETCH makes that a fault: `pc` or
`(pc + 1) mod MEM_SIZE` is below LOAD_OFFSET (20_memory.md R64, R101). -/
def fetchReserved (p : Params) (pc : Addr) : Bool :=
  decide (p.reservedFetch = .fault) &&
    (decide (pc.toNat < p.loadOffset.toNat) || decide ((pc.toNat + 1) % p.memSize < p.loadOffset.toNat))

/-- The word at `a` and `a + 1`, big-endian (20_memory.md R65). -/
def Memory.readWord (m : Memory) (a : Addr) (size : Nat := memSize) : Word :=
  wordOfBytes (m.read a.toNat size) (m.read (a.toNat + 1) size)

/-- Store a word at `a` and `a + 1`, big-endian (R65): what a load of its two bytes there leaves in memory. -/
def Memory.writeWord (m : Memory) (a : Addr) (w : Word) : Memory := m.writeBytes a.toNat (bytesOfWord w)

/-- The reads and writes of a fetch that raises nothing (R100). -/
def State.fetched (s : State) (size : Nat := memSize) : State :=
  (s.setOpcode (s.mem.readWord s.pc size)).setPc (nextPc s.pc size)

/-- `Fetch()` (R100, R101, R109). -/
def fetchWith (p : Params) (s : State) : Result :=
  whenRunning s fun s =>
    if fetchReserved p s.pc then raiseFault .reservedFetch s else .next (s.fetched p.memSize)

/-- `Execute()`: decode the opcode register and perform the term's rule (R102, R109). -/
def executeVia (perform : Instr → State → Result) (s : State) : Result :=
  whenRunning s fun s => perform (decodeWord s.opcode) s

/-- `Cycle()`: fetch, then execute; when the fetch raises a fault, execute does not run (R107). -/
def cycleVia (p : Params) (perform : Instr → State → Result) (s : State) : Result :=
  match fetchWith p s with
  | .next s1 =>
    match s1.fault with
    | none => executeVia perform s1
    | some _ => .next s1
  | .fault kind => .fault kind
  | .refused reason => .refused reason

/-- Dispatch (R105) for any parameters: `exec` is this at `Params.hardware` (Laws.exec_eq_execWith). -/
def execWith (p : Params) (i : Instr) (s : State) : Result :=
  match i with
  | .clearScreen => clearScreenWith p s
  | .ret => returnWith p s
  | .jump nnn => execJump nnn s
  | .call nnn => callWith p nnn s
  | .skipEqImm x nn => skipEqImmWith p x nn s
  | .skipNeImm x nn => skipNeImmWith p x nn s
  | .skipEqReg x y => skipEqRegWith p x y s
  | .skipNeReg x y => skipNeRegWith p x y s
  | .setImm x nn => execSetImm x nn s
  | .addImm x nn => execAddImm x nn s
  | .setIndex nnn => execSetIndex nnn s
  | .move x y => execMove x y s
  | .or x y => execOr x y s
  | .and x y => execAnd x y s
  | .xor x y => execXor x y s
  | .addCarry x y => execAddCarry x y s
  | .draw x y n => drawWith p x y n s
  | .unrecognised w => execUnrecognised w s

/-- `Cycle()` for any parameters. -/
def cycleWith (p : Params) (s : State) : Result := cycleVia p (execWith p) s

end Sys2Proof.Machine
end

