-- ==== Sys2Proof/Machine/Step.lean ====
section
/-! DEFINITION. This hardware's operations: fetch, execute, and one step, which is one cycle
(spec 40_fetch_dispatch.md R107; decision D20). -/

namespace Sys2Proof.Machine

/-- `fetch()` (R100). -/
def fetch (s : State) : Result := fetchWith Params.hardware s

/-- `execute()` (R102). -/
def execute (s : State) : Result := executeVia exec s

/-- One cycle: fetch, then execute (R107). -/
def step (s : State) : Host.Outcome State Fault Refusal := cycleVia Params.hardware exec s

/-- `s` with the table's word stored where the next fetch reads, at pc and pc + 1, big-endian. It stands for the
host's load of a program (log entry 8); nothing but those two bytes of memory changes (log entry 15). -/
def State.withFetchWord (s : State) (nbits w : Nat) : State :=
  s.setMem (s.mem.writeWord s.pc (tableWord nbits w))

end Sys2Proof.Machine
end

