-- ==== Sys2Proof/Machine/HostOps.lean ====
section
/-! DEFINITION. The host's operations (spec 70_reset_and_hazards.md R211 to R221) and the driver's loop (R216).
They take place only between engine operations, each one indivisible (R220). reset, load, flush, tick_timers and
fb_set do not depend on `fault`: only fetch and execute stop (60_exceptions.md R190; log entry 7). -/

namespace Sys2Proof.Machine

/-- The rows of the host interface table (R221). -/
inductive HostOp where
  | reset
  | load (image : List Byte)
  | fetch
  | execute
  | flush
  | tickTimers
  | fbSet (px py : Nat) (b : Bool)
deriving DecidableEq, Repr

/-- The longest image: MEM_SIZE - LOAD_OFFSET (R213). -/
def imageLimit (p : Params) : Nat := p.memSize - p.loadOffset.toNat

/-- `load(image)` (R214): memory from LOAD_OFFSET on takes the image; an image too long is refused and nothing is
written (R215; log entry 18). -/
def loadWith (p : Params) (image : List Byte) (s : State) : Result :=
  if imageLimit p < image.length then .refused .imageTooLong
  else .next (s.setMem (s.mem.writeBytes p.loadOffset.toNat image p.memSize))

/-- What `flush()` hands to the presentation surface: the whole pixel state when dirty, else nothing (R217; log entry 18). -/
def State.presented (s : State) : Option (List (List Bool)) := if s.fb.dirty then some s.fb.pix else none

/-- `flush()`: when dirty, present and clear dirty; pixels never change (R217). -/
def State.flushed (s : State) : State := if s.fb.dirty then s.setFb { s.fb with dirty := false } else s

/-- `tick_timers()`: `if DT > 0 then DT <- DT - 1` (R218; decision D13). -/
def State.ticked (s : State) : State := if 0 < s.dt.toNat then s.setDt (s.dt - 1#8) else s

/-- `fb_set(px, py, v)`: the test harness's write of one pixel, dirty unchanged; it requires a coordinate inside
the grid (R219; decision D23; 93_implementation_defined.md U9). -/
def fbSetWith (p : Params) (px py : Nat) (b : Bool) (s : State) : Result :=
  if px < p.fbWidth ∧ py < p.fbHeight then .next (s.setFb (s.fb.setPixel px py b)) else .refused .pixelOutOfRange

/-- One row of the host interface table (R221) on this hardware. -/
def hostStep (op : HostOp) (s : State) : Result :=
  match op with
  | .reset => .next State.reset
  | .load image => loadWith Params.hardware image s
  | .fetch => Sys2Proof.Machine.fetch s
  | .execute => Sys2Proof.Machine.execute s
  | .flush => .next s.flushed
  | .tickTimers => .next s.ticked
  | .fbSet px py b => fbSetWith Params.hardware px py b s

/-- One pass of the driver's normal loop (R216): a cycle, a flush if dirty, and a tick when the driver's own rate
asks for one (`tick`). It answers what was presented and the state. When the cycle raises a fault, the rest of the
pass is as on any other: R216's loop gives no other branch. DESIGN CHOICE (log entry 20). From the next pass on the
engine has no step, and a pass of a stopped engine answers no state. -/
def driverPass (tick : Bool) (s : State) : Option (Option (List (List Bool)) × State) :=
  match step s with
  | .next t => some (t.presented, if tick then t.flushed.ticked else t.flushed)
  | .fault _ => none
  | .refused _ => none

end Sys2Proof.Machine
end

