-- ==== Sys2Proof/Safety.lean ====
section
/-! DEFINITION. What the statements are about: the engine's invariant, the states a run reaches, and the words
"unchanged" of a frame. -/

namespace Sys2Proof.Machine

/-! ### Sprites -/

/-- Where a set sprite bit at the coordinate `(cx, cy)`, taken before the edge policy, lands (44_display.md R172).
Outside the grid, under `Clip` and `Fault`, there is no pixel. -/
def landing (p : Params) (cx cy : Nat) : Nat × Nat :=
  match p.edgePolicy with
  | .wrap => (cx % p.fbWidth, cy % p.fbHeight)
  | .clip => (cx, cy)
  | .fault => (cx, cy)

/-- Bit index `b` of row `r` of the sprite at I is set: the bit `7 - b` of the byte at `(I + r) mod MEM_SIZE`
(00_scope.md R10, R173). -/
def spriteHasBit (p : Params) (s : State) (r b : Nat) : Bool := (s.mem.read (s.i.toNat + r) p.memSize).getLsbD (7 - b)

/-- Where bit index `b` of row `r` of a sprite drawn with V[x], V[y] lands: the origin is V[x] mod W, V[y] mod H
(R171). -/
def bitLanding (p : Params) (s : State) (x y : Reg) (r b : Nat) : Nat × Nat :=
  landing p ((s.readReg x).toNat % p.fbWidth + b) ((s.readReg y).toNat % p.fbHeight + r)

/-- Some set bit of the sprite that `draw x y n` draws from the state `s` lands on the pixel (R171, R172, R173). -/
def SpriteHits (p : Params) (s : State) (x y : Reg) (n : Nibble) (px py : Nat) : Prop :=
  ∃ r, r < n.toNat ∧ ∃ b, b < 8 ∧ spriteHasBit p s r b = true ∧ bitLanding p s x y r b = (px, py)

/-- How many set bits of the sprite land on the pixel: more than one only when H < n or W < 8 (R171 corner
case f). -/
def spriteHitCount (p : Params) (s : State) (x y : Reg) (n : Nibble) (px py : Nat) : Nat :=
  ((List.range n.toNat).map fun r =>
    (List.range 8).countP fun b => spriteHasBit p s r b && decide (bitLanding p s x y r b = (px, py))).sum

/-- Some set bit of the sprite lies past the right or bottom edge: `OffEdge` (R172). -/
def SpriteOffEdge (p : Params) (s : State) (x y : Reg) (n : Nibble) : Prop :=
  ∃ r, r < n.toNat ∧ ∃ b, b < 8 ∧ spriteHasBit p s r b = true ∧
    (p.fbWidth ≤ (s.readReg x).toNat % p.fbWidth + b ∨ p.fbHeight ≤ (s.readReg y).toNat % p.fbHeight + r)

/-! ### The invariant -/

/-- A call stack of capacity K: K slots, the cursor in 0..K-1 (spec 10_state.md R30), and every slot below the
cursor holds an address (R33). -/
structure CallStack.Ok (p : Params) (k : CallStack) : Prop where
  capacity : k.slot.length = p.stackCapacity
  cursor : k.top < p.stackCapacity
  filled : ∀ j, j < k.top → (k.slotAt j).isSome = true

/-- A W x H grid (R36). -/
structure Framebuffer.Ok (p : Params) (f : Framebuffer) : Prop where
  width : f.pix.length = p.fbWidth
  height : ∀ column ∈ f.pix, column.length = p.fbHeight

/-- What the recorded fault says of the state it was raised in (60_exceptions.md R191). -/
def State.FaultOk (p : Params) (s : State) : Prop :=
  match s.fault with
  | none => True
  | some .stackUnderflow => s.opcode = 0x00EE#16 ∧ s.stack.top = 0 ∧ s.stack.slotAt 0 = none
  | some .reservedFetch => fetchReserved p s.pc = true
  | some .drawOutOfRange => p.edgePolicy = .fault ∧
      ∃ x y n, decodeWord s.opcode = .draw x y n ∧ SpriteOffEdge p s x y n

/-- The invariant of the engine. -/
structure State.Inv (p : Params) (s : State) : Prop where
  /-- The stack's shape and R33. -/
  stack : s.stack.Ok p
  /-- The grid's shape (R36). -/
  grid : s.fb.Ok p
  /-- Memory keeps its canonical form. -/
  memory : s.mem.wf = true
  /-- The reserved region stays 0x00 (20_memory.md R63). -/
  reserved : ∀ a, a < p.loadOffset.toNat → s.mem.read a = 0x00#8
  /-- DT = 0x00 (10_state.md R42). -/
  timer : s.dt = 0x00#8
  /-- The fault record (60_exceptions.md R191). -/
  record : s.FaultOk p

/-! ### Runs -/

/-- The states the host can bring this hardware to with the operations of 70_reset_and_hazards.md R221. -/
inductive Reachable : State → Prop where
  | reset : Reachable State.reset
  | op (o : HostOp) {s t : State} : Reachable s → hostStep o s = .next t → Reachable t

/-- A safe state: no fault is recorded, so the engine can go on. -/
def State.Running (s : State) : Prop := s.fault = none

/-- A safe run of `n` cycles: every cycle answers a state with no fault recorded. -/
def SafeRun : Nat → State → Prop
  | 0, s => s.Running
  | n + 1, s => s.Running ∧ ∃ t, step s = .next t ∧ SafeRun n t

/-! ### Frames -/

/-- Every byte of memory reads as before. -/
def KeepsMemory (s t : State) : Prop := ∀ a : Nat, t.mem.read a = s.mem.read a

/-- Every general register outside `written` reads as before. -/
def KeepsRegsBut (written : List Reg) (s t : State) : Prop := ∀ r : Reg, r ∉ written → t.readReg r = s.readReg r

/-- The registers that no instruction writes: opcode (40_fetch_dispatch.md R102), DT (10_state.md R42); and
memory (20_memory.md R66). -/
def KeepsUnwritten (s t : State) : Prop := t.opcode = s.opcode ∧ t.dt = s.dt ∧ KeepsMemory s t

/-- The call stack, slots and cursor. -/
def KeepsStack (s t : State) : Prop := t.stack = s.stack

/-- The pixels and the dirty flag. -/
def KeepsDisplay (s t : State) : Prop := t.fb = s.fb

/-- The frame of an instruction that writes only the general registers `written`. -/
def OnlyRegs (written : List Reg) (s t : State) : Prop :=
  KeepsRegsBut written s t ∧ t.pc = s.pc ∧ t.i = s.i ∧ t.fault = s.fault ∧
    KeepsStack s t ∧ KeepsDisplay s t ∧ KeepsUnwritten s t

/-- The frame of an instruction that writes only pc. -/
def OnlyPc (s t : State) : Prop :=
  KeepsRegsBut [] s t ∧ t.i = s.i ∧ t.fault = s.fault ∧ KeepsStack s t ∧ KeepsDisplay s t ∧ KeepsUnwritten s t

/-- The frame of an instruction that writes only pc and the call stack. -/
def OnlyPcAndStack (s t : State) : Prop :=
  KeepsRegsBut [] s t ∧ t.i = s.i ∧ t.fault = s.fault ∧ KeepsDisplay s t ∧ KeepsUnwritten s t

/-- The frame of an instruction that writes only the framebuffer and the general registers `written`. -/
def OnlyDisplayAndRegs (written : List Reg) (s t : State) : Prop :=
  KeepsRegsBut written s t ∧ t.pc = s.pc ∧ t.i = s.i ∧ t.fault = s.fault ∧ KeepsStack s t ∧ KeepsUnwritten s t

/-! ### Words of the rules -/

/-- Whether an instruction has `r` as its destination V[x] (10_state.md R22, column "writes V[x]"). -/
def WritesVx : Instr → Reg → Prop
  | .setImm x _, r => r = x
  | .addImm x _, r => r = x
  | .move x _, r => r = x
  | .or x _, r => r = x
  | .and x _, r => r = x
  | .xor x _, r => r = x
  | .addCarry x _, r => r = x
  | .clearScreen, _ => False
  | .ret, _ => False
  | .jump _, _ => False
  | .call _, _ => False
  | .skipEqImm _ _, _ => False
  | .skipNeImm _ _, _ => False
  | .skipEqReg _ _, _ => False
  | .skipNeReg _ _, _ => False
  | .setIndex _, _ => False
  | .draw _ _ _, _ => False
  | .unrecognised _, _ => False

/-- Whether an instruction writes VF as a side effect (R22, last column): add-carry and draw. -/
def WritesVFAsSideEffect : Instr → Prop
  | .addCarry _ _ => True
  | .draw _ _ _ => True
  | .setImm _ _ => False
  | .addImm _ _ => False
  | .move _ _ => False
  | .or _ _ => False
  | .and _ _ => False
  | .xor _ _ => False
  | .clearScreen => False
  | .ret => False
  | .jump _ => False
  | .call _ => False
  | .skipEqImm _ _ => False
  | .skipNeImm _ _ => False
  | .skipEqReg _ _ => False
  | .skipNeReg _ _ => False
  | .setIndex _ => False
  | .unrecognised _ => False

/-- Whether an instruction can write pc (R26): jump, call, return and the four skips. -/
def IsControlTransfer : Instr → Prop
  | .ret => True
  | .jump _ => True
  | .call _ => True
  | .skipEqImm _ _ => True
  | .skipNeImm _ _ => True
  | .skipEqReg _ _ => True
  | .skipNeReg _ _ => True
  | .clearScreen => False
  | .setImm _ _ => False
  | .addImm _ _ => False
  | .setIndex _ => False
  | .move _ _ => False
  | .or _ _ => False
  | .and _ _ => False
  | .xor _ _ => False
  | .addCarry _ _ => False
  | .draw _ _ _ => False
  | .unrecognised _ => False

/-- A fetch here reads an instruction: neither byte lies below LOAD_OFFSET (40_fetch_dispatch.md R101). -/
def State.Fetchable (s : State) : Prop := s.Running ∧ 0x200 ≤ s.pc.toNat ∧ s.pc.toNat ≠ 0xFFF

end Sys2Proof.Machine
end

