-- ==== Sys2Proof/Certificates/Slice0/Obligations.lean ====
section
/-! DEFINITION. The statements for the provers. Each docstring names the rule of spec/ it formalises. -/

open Sys2Proof Sys2Proof.Machine

/-! ### Encoding -/

/-- Decode and encode agree (spec 30_encoding.md R81, R84; 40_fetch_dispatch.md R104): every well-formed term, with
every operand at every value its field admits, is read back from its word, and from its bytes in memory order with
the bytes after them left over. -/
def Obligations.DecodeEncodeRoundTrip : Prop :=
  ∀ i : Instr, i.wf = true →
    decodeWord (encode i) = i ∧ ∀ rest : List Byte, decode (encodeBytes i ++ rest) = .ok (i, rest)

/-- Each word has one meaning, and it is well-formed: the decoded term encodes to the word again (R83, R104). -/
def Obligations.EncodeDecodeRoundTrip : Prop :=
  ∀ w : Word, (decodeWord w).wf = true ∧ encode (decodeWord w) = w

/-- The decoder of R104 and the match and mask table of R84 agree on all words: a word selects a row iff it decodes
to that row's mnemonic, and it selects none iff it decodes to Unrecognised, carrying the word. -/
def Obligations.DecodeAgreesWithOpcodeTable : Prop :=
  ∀ w : Word,
    (∀ r ∈ opcodeTable, r.selects w = true ↔ (decodeWord w).mnemonic = r.mnemonic) ∧
    (recognised w = false ↔ decodeWord w = .unrecognised w)

/-- R85: the 17 named patterns are pairwise disjoint. -/
def Obligations.OpcodeRowsAreDisjoint : Prop :=
  opcodeTable.length = 17 ∧
    ∀ w : Word, ∀ r ∈ opcodeTable, ∀ q ∈ opcodeTable, r.selects w = true → q.selects w = true → r = q

/-- R87: every pair of bytes decodes, to a well-formed term, and the bytes after it are left over. -/
def Obligations.EveryTwoBytesDecode : Prop :=
  ∀ (hi lo : Byte) (rest : List Byte), ∃ i : Instr, decode (hi :: lo :: rest) = .ok (i, rest) ∧ i.wf = true

/-- A few words written out from the patterns of R84, and what they decode to (95_test_vectors.md F15). -/
def Obligations.WrittenWordsDecode : Prop :=
  decodeWord 0x00E0#16 = .clearScreen ∧ decodeWord 0x00EE#16 = .ret ∧
  decodeWord 0x1FFF#16 = .jump 0xFFF#12 ∧ decodeWord 0x2000#16 = .call 0x000#12 ∧
  decodeWord 0x3A0B#16 = .skipEqImm 0xA#4 0x0B#8 ∧ decodeWord 0x5AB0#16 = .skipEqReg 0xA#4 0xB#4 ∧
  decodeWord 0x6A0B#16 = .setImm 0xA#4 0x0B#8 ∧ decodeWord 0x8AB4#16 = .addCarry 0xA#4 0xB#4 ∧
  decodeWord 0xDAB5#16 = .draw 0xA#4 0xB#4 0x5#4 ∧ decodeWord 0x5AB1#16 = .unrecognised 0x5AB1#16

/-! ### Fetch, execute and the cycle -/

/-- R100, R101, for any parameters with the one MEM_SIZE that R7 admits: a running engine's fetch either raises ReservedFetch, changing nothing but the
field fault, or reads two bytes big-endian into opcode, advances pc by 2 modulo MEM_SIZE, and changes nothing else. -/
def Obligations.FetchReadsWordAndAdvancesPc : Prop :=
  ∀ (p : Params) (s : State), p.memSize = 4096 → s.Running →
    ((p.reservedFetch = .fault ∧ (s.pc.toNat < p.loadOffset.toNat ∨ (s.pc.toNat + 1) % 4096 < p.loadOffset.toNat)) →
      fetchWith p s = .next { s with fault := some .reservedFetch }) ∧
    (¬ (p.reservedFetch = .fault ∧
        (s.pc.toNat < p.loadOffset.toNat ∨ (s.pc.toNat + 1) % 4096 < p.loadOffset.toNat)) →
      ∃ t, fetchWith p s = .next t ∧
        t.opcode.toNat = 256 * (s.mem.read s.pc.toNat).toNat + (s.mem.read (s.pc.toNat + 1)).toNat ∧
        t.pc.toNat = (s.pc.toNat + 2) % 4096 ∧
        KeepsRegsBut [] s t ∧ t.i = s.i ∧ t.dt = s.dt ∧ t.fault = s.fault ∧
        KeepsStack s t ∧ KeepsDisplay s t ∧ KeepsMemory s t)

/-- R101 on this hardware: a fetch raises ReservedFetch exactly for pc in 0x000..0x1FF and for pc = 0xFFF, and then
every other piece of state keeps its value. -/
def Obligations.FetchFaultsExactlyInReservedRegion : Prop :=
  ∀ s : State, s.Running →
    ((∃ t, fetch s = .next t ∧ t.fault = some .reservedFetch) ↔ (s.pc.toNat < 0x200 ∨ s.pc.toNat = 0xFFF)) ∧
    ((s.pc.toNat < 0x200 ∨ s.pc.toNat = 0xFFF) → fetch s = .next { s with fault := some .reservedFetch })

/-- A step runs the decoded instruction (R102, R105, R107): where the two bytes at pc decode to `i`, the step is
`exec i` on the state after the fetch, in which opcode is the word and pc is moved past it. -/
def Obligations.StepRunsDecodedInstruction : Prop :=
  ∀ (s : State) (i : Instr) (rest : List Byte), s.Fetchable →
    decode [s.mem.read s.pc.toNat, s.mem.read (s.pc.toNat + 1)] = .ok (i, rest) →
    step s = exec i { s with
      opcode := s.mem.read s.pc.toNat ++ s.mem.read (s.pc.toNat + 1)
      pc := s.pc + 2#12 }

/-- R107: if the cycle's fetch raises a fault, execute does not run: the step is that fetch. -/
def Obligations.FaultingFetchSkipsExecute : Prop :=
  ∀ s t : State, fetch s = .next t → t.fault ≠ none → step s = .next t

/-- R109: a faulted engine has no step. Neither fetch nor execute nor a cycle answers a state; each answers the
recorded kind. -/
def Obligations.FaultedEngineHasNoStep : Prop :=
  ∀ (s : State) (k : Fault), s.fault = some k → fetch s = .fault k ∧ execute s = .fault k ∧ step s = .fault k

/-- R190: the fault is sticky. No operation of the host interface but reset leaves a faulted engine with another
value of fault; reset clears it, because it puts every piece of state back (70_reset_and_hazards.md R211). -/
def Obligations.OnlyResetClearsTheFault : Prop :=
  (∀ (o : HostOp) (s t : State) (k : Fault), s.fault = some k → o ≠ .reset → hostStep o s = .next t →
    t.fault = some k) ∧
  (∀ s : State, hostStep .reset s = .next State.reset) ∧ State.reset.fault = none

/-- R108: an execute without a fetch performs the opcode register's instruction again, against the current state:
pc is not advanced first, opcode stays, and a second execute performs the same instruction. Before any fetch after
reset it is a no-op. -/
def Obligations.ExecuteWithoutFetchReexecutes : Prop :=
  (∀ s : State, s.Running → execute s = exec (decodeWord s.opcode) s) ∧
  (∀ s t : State, s.Running → execute s = .next t → t.Running →
    t.opcode = s.opcode ∧ execute t = exec (decodeWord s.opcode) t) ∧
  execute State.reset = .next State.reset

/-- 70_reset_and_hazards.md R223: two fetches with no execute between them discard the first word: pc advances by 4,
modulo MEM_SIZE, and opcode holds the second word; nothing else changes. -/
def Obligations.TwoFetchesDiscardTheFirstWord : Prop :=
  ∀ s : State, s.Fetchable → s.pc.toNat + 2 < 0xFFF →
    ∃ t u, fetch s = .next t ∧ fetch t = .next u ∧
      u.pc.toNat = (s.pc.toNat + 4) % 4096 ∧
      u.opcode = s.mem.read (s.pc.toNat + 2) ++ s.mem.read (s.pc.toNat + 3) ∧
      KeepsRegsBut [] s u ∧ u.i = s.i ∧ u.dt = s.dt ∧ u.fault = s.fault ∧
      KeepsStack s u ∧ KeepsDisplay s u ∧ KeepsMemory s u

/-- The host's load of one word where the next fetch reads (log entry 8): the next step runs exactly that word's
instruction, and no other byte of memory and nothing else of the state changes. -/
def Obligations.StoredWordIsTheNextInstruction : Prop :=
  ∀ (s : State) (w : Word), s.Fetchable → s.mem.wf = true →
    let u := s.withFetchWord 16 w.toNat
    step u = exec (decodeWord w) { u with opcode := w, pc := s.pc + 2#12 } ∧
    u = { s with mem := u.mem } ∧
    ∀ a, a < 4096 → a ≠ s.pc.toNat → a ≠ s.pc.toNat + 1 → u.mem.read a = s.mem.read a

/-- R106, R110: executing an unrecognised word changes no state. In a cycle only the fetch's writes of opcode and pc
are seen. -/
def Obligations.UnrecognisedWordIsANoOp : Prop :=
  (∀ (w : Word) (s : State), exec (.unrecognised w) s = .next s) ∧
  (∀ s : State, s.Fetchable → recognised (s.mem.read s.pc.toNat ++ s.mem.read (s.pc.toNat + 1)) = false →
    step s = .next { s with
      opcode := s.mem.read s.pc.toNat ++ s.mem.read (s.pc.toNat + 1)
      pc := s.pc + 2#12 })

/-- R107, R121: a jump to its own address loops for ever: after the first cycle the state never changes again, and
every run of it is free of faults. -/
def Obligations.JumpToSelfLoopsForever : Prop :=
  ∀ s : State, s.Fetchable → s.mem.read s.pc.toNat ++ s.mem.read (s.pc.toNat + 1) = 0x1#4 ++ s.pc →
    ∃ t, step s = .next t ∧ t.pc = s.pc ∧ step t = .next t ∧ ∀ k, SafeRun k s

/-! ### What every instruction keeps -/

/-- Every instruction of the table answers a next state, from every state and for every operand: on this hardware no
instruction stops the engine without a state. That a return that underflows (R120, 60_exceptions.md R190) answers a
next state, with the fault recorded, and that exec itself does not ask whether a fault is recorded already, are the
model's readings (log entries 1 and 2). -/
def Obligations.EveryInstructionAnswersANextState : Prop :=
  ∀ (i : Instr) (s : State), ∃ t, exec i s = .next t

/-- No instruction writes the opcode register (R102), DT (10_state.md R42) or memory (20_memory.md R66). -/
def Obligations.NoInstructionWritesOpcodeTimerOrMemory : Prop :=
  ∀ (i : Instr) (s t : State), exec i s = .next t → KeepsUnwritten s t

/-- 10_state.md R22: a general register changes only as the destination V[x] of an instruction that has one, or VF
as the side effect of add-carry and draw. -/
def Obligations.RegisterWritersAreTheTable : Prop :=
  ∀ (i : Instr) (s t : State) (r : Reg), exec i s = .next t → t.readReg r ≠ s.readReg r →
    WritesVx i r ∨ (r = 0xF#4 ∧ WritesVFAsSideEffect i)

/-- 10_state.md R26: during execute only jump, call, return and the four skips write pc, and a skip leaves pc or
pc + 2. -/
def Obligations.OnlyControlTransferWritesPc : Prop :=
  ∀ (i : Instr) (s t : State), exec i s = .next t →
    (t.pc ≠ s.pc → IsControlTransfer i) ∧
    (t.pc ≠ s.pc → i ≠ .ret → (∀ a, i ≠ .jump a) → (∀ a, i ≠ .call a) → t.pc = s.pc + 2#12)

/-- Who writes I, the stack and the framebuffer (10_state.md R28, R30, R40): set-index alone, call and return alone,
clear-screen and draw alone; no instruction clears dirty. -/
def Obligations.WritersOfIndexStackAndDisplay : Prop :=
  ∀ (i : Instr) (s t : State), exec i s = .next t →
    (t.i ≠ s.i → ∃ a, i = .setIndex a) ∧
    (t.stack ≠ s.stack → i = .ret ∨ ∃ a, i = .call a) ∧
    (t.fb ≠ s.fb → i = .clearScreen ∨ ∃ x y n, i = .draw x y n) ∧
    (s.fb.dirty = true → t.fb.dirty = true)

/-- 60_exceptions.md R193 on this hardware: execute of any instruction but return raises nothing, and a return
either leaves fault alone or records StackUnderflow and changes nothing else. -/
def Obligations.OnlyReturnRaisesDuringExecute : Prop :=
  ∀ (i : Instr) (s t : State), exec i s = .next t →
    t.fault = s.fault ∨ (i = .ret ∧ t = { s with fault := some .stackUnderflow })

/-- No instruction reads DT, the opcode register or dirty (10_state.md R29, R40, R42): changing one of them before
an instruction changes that field after it and nothing else. -/
def Obligations.NoInstructionReadsTimerOpcodeOrDirty : Prop :=
  ∀ (i : Instr) (s t : State), exec i s = .next t →
    (∀ d : Byte, exec i { s with dt := d } = .next { t with dt := d }) ∧
    (∀ w : Word, exec i { s with opcode := w } = .next { t with opcode := w }) ∧
    (∀ b : Bool, ∃ c : Bool,
      exec i { s with fb := { s.fb with dirty := b } } = .next { t with fb := { t.fb with dirty := c } })

/-- Only draw reads I, and only draw reads memory (10_state.md R28, 20_memory.md R66): changing one of them before any
other instruction changes no more than that field after it. -/
def Obligations.OnlyDrawReadsIndexAndMemory : Prop :=
  ∀ (i : Instr) (s t : State), (∀ x y n, i ≠ .draw x y n) → exec i s = .next t →
    (∀ a : Addr, ∃ c : Addr, exec i { s with i := a } = .next { t with i := c }) ∧
    (∀ m : Memory, exec i { s with mem := m } = .next { t with mem := m })

/-! ### Control transfer -/

/-- 41_control.md R120, 10_state.md R32: return above top 0 takes the address in the slot below top, empties that
slot and lowers top; nothing else changes but pc. -/
def Obligations.ReturnPopsTheSlotBelowTop : Prop :=
  ∀ (s : State) (a : Addr), s.stack.Ok Params.hardware → s.stack.top ≠ 0 →
    s.stack.slotAt (s.stack.top - 1) = some a →
    ∃ t, exec .ret s = .next t ∧ t.pc = a ∧ t.stack.top = s.stack.top - 1 ∧
      t.stack.slot.length = s.stack.slot.length ∧
      (∀ j, t.stack.slotAt j = if j = s.stack.top - 1 then none else s.stack.slotAt j) ∧ OnlyPcAndStack s t

/-- R120 corner case (a): at top = 0 a return jumps to the address slot 0 holds, and the stack keeps every slot and
top = 0, because POP0_CLEARS = false on this hardware (90_conflicts.md C3). -/
def Obligations.ReturnAtTopZeroKeepsTheStack : Prop :=
  ∀ (s : State) (a : Addr), s.stack.top = 0 → s.stack.slotAt 0 = some a →
    ∃ t, exec .ret s = .next t ∧ t.pc = a ∧ t.stack = s.stack ∧ OnlyPcAndStack s t

/-- R120, 10_state.md R34, 60_exceptions.md R190: on a stack that meets R33, a return records StackUnderflow exactly
when top = 0 and slot 0 is empty, and then changes nothing but the field fault. -/
def Obligations.ReturnUnderflowsExactlyWhenEmpty : Prop :=
  ∀ s : State, s.stack.Ok Params.hardware → s.Running →
    ((∃ t, exec .ret s = .next t ∧ t.fault = some .stackUnderflow) ↔
      (s.stack.top = 0 ∧ s.stack.slotAt 0 = none)) ∧
    (s.stack.top = 0 → s.stack.slotAt 0 = none →
      exec .ret s = .next { s with fault := some .stackUnderflow })

/-- 41_control.md R121: jump sets pc and nothing else, and raises nothing itself; from a reserved target, or 0xFFF, the
next fetch raises ReservedFetch. -/
def Obligations.JumpSetsPc : Prop :=
  ∀ (nnn : Addr) (s : State), decodeWord (wordOfAddr 0x1#4 nnn) = .jump nnn ∧
    ∃ t, exec (.jump nnn) s = .next t ∧ t.pc = nnn ∧ OnlyPc s t ∧
      (s.Running → nnn.toNat < 0x200 ∨ nnn = 0xFFF#12 → fetch t = .next { t with fault := some .reservedFetch })

/-- 41_control.md R122, 10_state.md R31: call stores pc, the return address, in the slot at top, overwriting what
was there, moves top on by one modulo K, and jumps; a full stack is no fault. From a reserved target, or 0xFFF, the
next fetch raises ReservedFetch. -/
def Obligations.CallPushesTheReturnAddress : Prop :=
  ∀ (nnn : Addr) (s : State), s.stack.slot.length = 16 → s.stack.top < 16 →
    decodeWord (wordOfAddr 0x2#4 nnn) = .call nnn ∧
    ∃ t, exec (.call nnn) s = .next t ∧ t.pc = nnn ∧
      t.stack.top = (s.stack.top + 1) % 16 ∧ t.stack.slot.length = 16 ∧
      (∀ j, t.stack.slotAt j = if j = s.stack.top then some s.pc else s.stack.slotAt j) ∧ OnlyPcAndStack s t ∧
      (s.Running → nnn.toNat < 0x200 ∨ nnn = 0xFFF#12 → fetch t = .next { t with fault := some .reservedFetch })

/-- 41_control.md R123 to R127: the four skips add 2 to pc, modulo MEM_SIZE, when their condition on the unsigned
register values holds, and otherwise leave it. -/
def Obligations.SkipsAddTwoExactlyOnTheirCondition : Prop :=
  ∀ (x y : Reg) (nn : Byte) (s : State),
    (decodeWord (wordOfImm 0x3#4 x nn) = .skipEqImm x nn ∧ decodeWord (wordOfImm 0x4#4 x nn) = .skipNeImm x nn ∧
      decodeWord (wordOfNibbles 0x5#4 x y 0x0#4) = .skipEqReg x y ∧
      decodeWord (wordOfNibbles 0x9#4 x y 0x0#4) = .skipNeReg x y) ∧
    (∃ t, exec (.skipEqImm x nn) s = .next t ∧ OnlyPc s t ∧
      t.pc.toNat = if (s.readReg x).toNat = nn.toNat then (s.pc.toNat + 2) % 4096 else s.pc.toNat) ∧
    (∃ t, exec (.skipNeImm x nn) s = .next t ∧ OnlyPc s t ∧
      t.pc.toNat = if (s.readReg x).toNat = nn.toNat then s.pc.toNat else (s.pc.toNat + 2) % 4096) ∧
    (∃ t, exec (.skipEqReg x y) s = .next t ∧ OnlyPc s t ∧
      t.pc.toNat = if (s.readReg x).toNat = (s.readReg y).toNat then (s.pc.toNat + 2) % 4096 else s.pc.toNat) ∧
    (∃ t, exec (.skipNeReg x y) s = .next t ∧ OnlyPc s t ∧
      t.pc.toNat = if (s.readReg x).toNat = (s.readReg y).toNat then s.pc.toNat else (s.pc.toNat + 2) % 4096)

/-- 41_control.md R128, where it holds: from a stack whose cursor is not at its last slot, a call and then a return
that finds the stack as the call left it restores pc to the address after the call, and the cursor. -/
def Obligations.CallThenReturnRestoresPc : Prop :=
  ∀ (nnn : Addr) (s t u : State), s.stack.Ok Params.hardware → s.stack.top + 1 < 16 →
    exec (.call nnn) s = .next t → u.stack = t.stack →
    ∃ r, exec .ret u = .next r ∧ r.pc = s.pc ∧ r.stack.top = s.stack.top ∧
      ∀ j, j ≠ s.stack.top → r.stack.slotAt j = s.stack.slotAt j

/-- 10_state.md R35 (b), where R128 fails (log entry 9): a call made at the last slot wraps top to 0, so the return
after it takes slot 0, the oldest address, and not the one just pushed. -/
def Obligations.CallAtTheLastSlotReturnsToTheOldest : Prop :=
  ∀ (nnn oldest : Addr) (s t u : State), s.stack.Ok Params.hardware → s.stack.top = 15 →
    s.stack.slotAt 0 = some oldest → exec (.call nnn) s = .next t → u.stack = t.stack →
    ∃ r, exec .ret u = .next r ∧ r.pc = oldest ∧ r.stack = t.stack

/-! ### The call stack, for any parameters -/

/-- 10_state.md R35 (a): pushing K + 1 addresses on an empty stack and popping once gives the last one pushed, not
the first; slot 0 is emptied, and the slots above hold the 2nd to the K-th address. -/
def Obligations.PushingOnePastCapacityOverwritesTheOldest : Prop :=
  ∀ (p : Params) (first last : Addr) (middle : List Addr), 2 ≤ p.stackCapacity →
    middle.length + 1 = p.stackCapacity →
    let full := (CallStack.empty p.stackCapacity).pushAll p (first :: middle ++ [last])
    full.top = 1 ∧ full.slotAt 0 = some last ∧ (∀ j, j < middle.length → full.slotAt (j + 1) = middle[j]?) ∧
    (full.pop p).1 = some last ∧ (full.pop p).2.top = 0 ∧ (full.pop p).2.slotAt 0 = none ∧
    (∀ j, j < middle.length → (full.pop p).2.slotAt (j + 1) = middle[j]?)

/-- 10_state.md R35 (b) and decision D8: after exactly K pushes on an empty stack, top = 0. With POP0_CLEARS = false
every later pop returns the oldest address and changes nothing; with POP0_CLEARS = true the first does, and every
pop after it returns none. -/
def Obligations.PoppingAFullStackReturnsTheOldest : Prop :=
  ∀ (p : Params) (first : Addr) (later : List Addr) (n : Nat), later.length + 1 = p.stackCapacity →
    let full := (CallStack.empty p.stackCapacity).pushAll p (first :: later)
    full.top = 0 ∧
    (p.pop0Clears = false → CallStack.popMany p n full = (List.replicate n (some first), full)) ∧
    (p.pop0Clears = true →
      (CallStack.popMany p (n + 1) full).1 = some first :: List.replicate n none)

/-- 10_state.md R31, R32: while the cursor does not wrap, the stack is last in, first out: popping as many times as
addresses were pushed returns them in reverse and brings the cursor back, and no slot below it has changed. -/
def Obligations.StackIsLastInFirstOutBelowCapacity : Prop :=
  ∀ (p : Params) (k : CallStack) (as : List Addr), k.slot.length = p.stackCapacity →
    k.top + as.length < p.stackCapacity →
    let r := CallStack.popMany p as.length (k.pushAll p as)
    r.1 = as.reverse.map some ∧ r.2.top = k.top ∧ ∀ j, j < k.top → r.2.slotAt j = k.slotAt j

/-! ### Immediate and index -/

/-- 42_immediate_index.md R140: set-imm, its word and its effect. -/
def Obligations.SetImmLoadsTheImmediate : Prop :=
  ∀ (x : Reg) (nn : Byte) (s : State), decodeWord (wordOfImm 0x6#4 x nn) = .setImm x nn ∧
    ∃ t, exec (.setImm x nn) s = .next t ∧ t.readReg x = nn ∧ OnlyRegs [x] s t

/-- 42_immediate_index.md R141: add-imm wraps modulo 256 and writes no flag: VF keeps its value unless x = 0xF. -/
def Obligations.AddImmWrapsWithoutFlag : Prop :=
  ∀ (x : Reg) (nn : Byte) (s : State), decodeWord (wordOfImm 0x7#4 x nn) = .addImm x nn ∧
    ∃ t, exec (.addImm x nn) s = .next t ∧
    (t.readReg x).toNat = ((s.readReg x).toNat + nn.toNat) % 256 ∧
    (x ≠ 0xF#4 → t.readReg 0xF#4 = s.readReg 0xF#4) ∧ OnlyRegs [x] s t

/-- 42_immediate_index.md R142: set-index, its word and its effect. -/
def Obligations.SetIndexLoadsI : Prop :=
  ∀ (nnn : Addr) (s : State), decodeWord (wordOfAddr 0xA#4 nnn) = .setIndex nnn ∧
    ∃ t, exec (.setIndex nnn) s = .next t ∧ t.i = nnn ∧ KeepsRegsBut [] s t ∧
    t.pc = s.pc ∧ t.fault = s.fault ∧ KeepsStack s t ∧ KeepsDisplay s t ∧ KeepsUnwritten s t

/-! ### ALU -/

/-- 43_alu.md R150 to R154: move, or, and, xor write V[x] bit by bit from the old V[x] and V[y], and nothing else;
VF changes only as the destination. -/
def Obligations.LogicWritesOnlyItsDestination : Prop :=
  ∀ (x y : Reg) (s : State),
    (decodeWord (wordOfNibbles 0x8#4 x y 0x0#4) = .move x y ∧ decodeWord (wordOfNibbles 0x8#4 x y 0x1#4) = .or x y ∧
      decodeWord (wordOfNibbles 0x8#4 x y 0x2#4) = .and x y ∧ decodeWord (wordOfNibbles 0x8#4 x y 0x3#4) = .xor x y) ∧
    (∃ t, exec (.move x y) s = .next t ∧ t.readReg x = s.readReg y ∧ OnlyRegs [x] s t) ∧
    (∃ t, exec (.or x y) s = .next t ∧ OnlyRegs [x] s t ∧
      ∀ k, (t.readReg x).getLsbD k = ((s.readReg x).getLsbD k || (s.readReg y).getLsbD k)) ∧
    (∃ t, exec (.and x y) s = .next t ∧ OnlyRegs [x] s t ∧
      ∀ k, (t.readReg x).getLsbD k = ((s.readReg x).getLsbD k && (s.readReg y).getLsbD k)) ∧
    (∃ t, exec (.xor x y) s = .next t ∧ OnlyRegs [x] s t ∧
      ∀ k, (t.readReg x).getLsbD k = ((s.readReg x).getLsbD k ^^ (s.readReg y).getLsbD k))

/-- 43_alu.md R155: add-carry. VF is 1 iff the exact sum is at least 256, else 0, also when x = 0xF; V[x] is the sum
modulo 256 when x is not 0xF. Both operands are read before any write, so y = 0xF and x = y are covered. -/
def Obligations.AddCarryReportsTheCarry : Prop :=
  ∀ (x y : Reg) (s : State), decodeWord (wordOfNibbles 0x8#4 x y 0x4#4) = .addCarry x y ∧
    ∃ t, exec (.addCarry x y) s = .next t ∧
    (t.readReg 0xF#4).toNat = (if 256 ≤ (s.readReg x).toNat + (s.readReg y).toNat then 1 else 0) ∧
    (x ≠ 0xF#4 → (t.readReg x).toNat = ((s.readReg x).toNat + (s.readReg y).toNat) % 256) ∧
    OnlyRegs [x, 0xF#4] s t

/-! ### Display -/

/-- 44_display.md R170: clear-screen leaves every pixel of the grid 0 and dirty set, and writes no register. -/
def Obligations.ClearScreenClearsEveryPixel : Prop :=
  decodeWord 0x00E0#16 = .clearScreen ∧
  ∀ s : State, ∃ t, exec .clearScreen s = .next t ∧ t.fb.Ok Params.hardware ∧
    (∀ px py, px < 64 → py < 32 → t.fb.get px py = false) ∧ t.fb.dirty = true ∧ OnlyDisplayAndRegs [] s t

/-- 44_display.md R171 to R175 with this hardware's Wrap: a draw toggles exactly the pixels the sprite's set bits land
on, VF is 1 iff one of them read 1 before and else 0, and dirty is set whatever was drawn. The coordinates are read
before VF is cleared, so x = 0xF and y = 0xF are covered. -/
def Obligations.DrawXorsTheSpriteAndReportsCollision : Prop :=
  ∀ (x y : Reg) (n : Nibble) (s : State), s.fb.Ok Params.hardware →
    ∃ t, exec (.draw x y n) s = .next t ∧ t.fb.Ok Params.hardware ∧
      (∀ px py, px < 64 → py < 32 →
        (SpriteHits Params.hardware s x y n px py → t.fb.get px py = !s.fb.get px py) ∧
        (¬ SpriteHits Params.hardware s x y n px py → t.fb.get px py = s.fb.get px py)) ∧
      ((∃ px py, px < 64 ∧ py < 32 ∧ SpriteHits Params.hardware s x y n px py ∧ s.fb.get px py = true) →
        t.readReg 0xF#4 = 0x01#8) ∧
      ((¬ ∃ px py, px < 64 ∧ py < 32 ∧ SpriteHits Params.hardware s x y n px py ∧ s.fb.get px py = true) →
        t.readReg 0xF#4 = 0x00#8) ∧
      t.fb.dirty = true ∧ OnlyDisplayAndRegs [0xF#4] s t

/-- R173: a draw of `n` rows reads memory at the addresses I to I + n - 1, modulo MEM_SIZE, and nowhere else: from any
other memory that holds the same bytes there it does the same; it writes no memory, and I is not changed. -/
def Obligations.DrawReadsOnlyTheSpriteBytes : Prop :=
  ∀ (x y : Reg) (n : Nibble) (s t : State) (m : Memory), exec (.draw x y n) s = .next t →
    (∀ r, r < n.toNat → m.read ((s.i.toNat + r) % 4096) = s.mem.read ((s.i.toNat + r) % 4096)) →
    exec (.draw x y n) { s with mem := m } = .next { t with mem := m } ∧ t.i = s.i ∧ t.mem = s.mem

/-- R171 corner case (a), R175: a draw of 0 rows changes no pixel, clears VF and still sets dirty. -/
def Obligations.DrawOfNoRowsStillSetsDirty : Prop :=
  ∀ (x y : Reg) (s : State), ∃ t, exec (.draw x y 0x0#4) s = .next t ∧ t.fb.pix = s.fb.pix ∧
    t.fb.dirty = true ∧ t.readReg 0xF#4 = 0x00#8 ∧ OnlyDisplayAndRegs [0xF#4] s t

/-- R176: a second draw of the same sprite at the same place, with V[x], V[y], I, the sprite bytes and the pixels as
the first draw left them, restores every pixel; its VF is 1 exactly when some set bit meets a pixel that reads 1, and
from an all-0 framebuffer that means the sprite has a set bit. Where x or y is 0xF the draw itself may change V[x] or
V[y] (log entry 10), so V[x] and V[y] are premises on the second state. -/
def Obligations.DrawingTwiceRestoresThePixels : Prop :=
  ∀ (x y : Reg) (n : Nibble) (s t u : State), s.fb.Ok Params.hardware → exec (.draw x y n) s = .next t →
    u.fb.pix = t.fb.pix → u.readReg x = s.readReg x → u.readReg y = s.readReg y → u.i = s.i → KeepsMemory s u →
    ∃ r, exec (.draw x y n) u = .next r ∧ r.fb.pix = s.fb.pix ∧
      (r.readReg 0xF#4 = 0x01#8 ↔
        ∃ px py, px < 64 ∧ py < 32 ∧ SpriteHits Params.hardware u x y n px py ∧ u.fb.get px py = true) ∧
      ((∀ px py, px < 64 → py < 32 → s.fb.get px py = false) →
        (r.readReg 0xF#4 = 0x01#8 ↔
          ∃ k, k < n.toNat ∧ ∃ b, b < 8 ∧ (s.mem.read (s.i.toNat + k)).getLsbD b = true))

/-- R172 under EDGE_POLICY = Fault, for any other parameters: a set sprite bit past an edge raises DrawOutOfRange, and
VF, the pixels and dirty are unchanged; when no set bit lies past an edge the draw answers with no fault. -/
def Obligations.DrawUnderFaultPolicyIsPrecise : Prop :=
  ∀ (p : Params) (x y : Reg) (n : Nibble) (s : State), p.edgePolicy = .fault →
    (SpriteOffEdge p s x y n → drawWith p x y n s = .next { s with fault := some .drawOutOfRange }) ∧
    (¬ SpriteOffEdge p s x y n → ∃ t, drawWith p x y n s = .next t ∧ t.fault = s.fault ∧ t.fb.dirty = true)

/-- R171, R172 for every edge policy and every grid of at least 8 by n, on which no two set bits share a pixel: the pixels toggled are those of the grid that
the set bits land on (wrapped, or dropped past the edge), and VF and dirty follow, when the Fault policy's check has
passed. -/
def Obligations.DrawUnderEveryEdgePolicy : Prop :=
  ∀ (p : Params) (x y : Reg) (n : Nibble) (s : State), p.Valid → 8 ≤ p.fbWidth → n.toNat ≤ p.fbHeight →
    s.fb.Ok p → (p.edgePolicy = .fault → ¬ SpriteOffEdge p s x y n) →
    ∃ t, drawWith p x y n s = .next t ∧ t.fb.Ok p ∧
      (∀ px py, px < p.fbWidth → py < p.fbHeight →
        (SpriteHits p s x y n px py → t.fb.get px py = !s.fb.get px py) ∧
        (¬ SpriteHits p s x y n px py → t.fb.get px py = s.fb.get px py)) ∧
      (t.readReg 0xF#4 = 0x01#8 ↔
        ∃ px py, px < p.fbWidth ∧ py < p.fbHeight ∧ SpriteHits p s x y n px py ∧ s.fb.get px py = true) ∧
      t.fb.dirty = true ∧ OnlyDisplayAndRegs [0xF#4] s t

/-- R171 corner case (f), R172, R174 on every grid, however small, and for every edge policy: a pixel is toggled once
for each set bit that lands on it, so it changes iff their number is odd; VF is 1 iff some pixel that a set bit lands
on read 1 before, or takes a second set bit, which meets what the first left; else VF is 0. -/
def Obligations.DrawTogglesOncePerSetBitOnAnyGrid : Prop :=
  ∀ (p : Params) (x y : Reg) (n : Nibble) (s : State), p.Valid → s.fb.Ok p →
    (p.edgePolicy = .fault → ¬ SpriteOffEdge p s x y n) →
    let collides := ∃ px py, px < p.fbWidth ∧ py < p.fbHeight ∧ 1 ≤ spriteHitCount p s x y n px py ∧
      (s.fb.get px py = true ∨ 2 ≤ spriteHitCount p s x y n px py)
    ∃ t, drawWith p x y n s = .next t ∧ t.fb.Ok p ∧
      (∀ px py, px < p.fbWidth → py < p.fbHeight →
        t.fb.get px py = (s.fb.get px py ^^ decide (spriteHitCount p s x y n px py % 2 = 1))) ∧
      (collides → t.readReg 0xF#4 = 0x01#8) ∧ (¬ collides → t.readReg 0xF#4 = 0x00#8) ∧
      t.fb.dirty = true ∧ OnlyDisplayAndRegs [0xF#4] s t

/-! ### Reset and the invariant -/

/-- 10_state.md R45, 70_reset_and_hazards.md R210: the state after reset. -/
def Obligations.ResetState : Prop :=
  (∀ r : Reg, State.reset.readReg r = 0x00#8) ∧ State.reset.pc = 0x200#12 ∧ State.reset.i = 0x000#12 ∧
  State.reset.opcode = 0x0000#16 ∧ State.reset.dt = 0x00#8 ∧
  State.reset.stack.slot.length = 16 ∧ (∀ j, j < 16 → State.reset.stack.slotAt j = none) ∧
  State.reset.stack.top = 0 ∧ State.reset.fb.Ok Params.hardware ∧
  (∀ px py, px < 64 → py < 32 → State.reset.fb.get px py = false) ∧ State.reset.fb.dirty = false ∧
  (∀ a, a < 4096 → State.reset.mem.read a = 0x00#8) ∧ State.reset.fault = none

/-- The invariant holds at reset. -/
def Obligations.ResetMeetsTheInvariant : Prop := State.reset.Inv Params.hardware

/-- Every step from a state that meets the invariant answers a state that meets it: the stack's shape and R33, the
grid's shape, memory's canonical form, the reserved region at 0x00 (20_memory.md R63), DT = 0 (10_state.md R42), and
the fault record (60_exceptions.md R191). -/
def Obligations.StepKeepsTheInvariant : Prop :=
  ∀ s t : State, s.Inv Params.hardware → step s = .next t → t.Inv Params.hardware

/-- The same for every operation of the host interface table (70_reset_and_hazards.md R221), whatever image is loaded
and whatever pixel is set. -/
def Obligations.HostOperationsKeepTheInvariant : Prop :=
  ∀ (o : HostOp) (s t : State), s.Inv Params.hardware → hostStep o s = .next t → t.Inv Params.hardware

/-- The same for a cycle under every setting of the parameters of 00_scope.md R7. Where EDGE_POLICY = Fault, a recorded
DrawOutOfRange stands beside a draw word in opcode whose sprite lies past an edge (60_exceptions.md R191). -/
def Obligations.CycleKeepsTheInvariantForEveryParameters : Prop :=
  ∀ (p : Params) (s t : State), s.Inv p → cycleWith p s = .next t → t.Inv p

/-- In every state the host can reach from reset: DT = 0x00 (10_state.md R42); Pop gives none exactly when top = 0
and slot 0 is empty (R34); every byte of the reserved region reads 0x00 (20_memory.md R63); and DrawOutOfRange is
never recorded, while a recorded StackUnderflow stands beside opcode = 0x00EE (60_exceptions.md R191). -/
def Obligations.WhatEveryReachableStateMeets : Prop :=
  ∀ s : State, Reachable s →
    s.dt = 0x00#8 ∧
    ((s.stack.pop Params.hardware).1 = none ↔ s.stack.top = 0 ∧ s.stack.slotAt 0 = none) ∧
    (∀ a, a < 0x200 → s.mem.read a = 0x00#8) ∧
    s.fault ≠ some .drawOutOfRange ∧
    (s.fault = some .stackUnderflow → s.opcode = 0x00EE#16)

/-! ### Host operations -/

/-- 70_reset_and_hazards.md R214, R215: a load of at most 3584 bytes writes the image from 0x200 on and nothing else;
a longer one is refused. -/
def Obligations.LoadWritesTheImageOrIsRefused : Prop :=
  ∀ (image : List Byte) (s : State), s.mem.wf = true →
    (image.length ≤ 3584 → ∃ t, hostStep (.load image) s = .next t ∧ t.mem.wf = true ∧
      (∀ k, k < image.length → some (t.mem.read (0x200 + k)) = image[k]?) ∧
      (∀ a, a < 4096 → (a < 0x200 ∨ 0x200 + image.length ≤ a) → t.mem.read a = s.mem.read a) ∧
      t = { s with mem := t.mem }) ∧
    (3584 < image.length → hostStep (.load image) s = .refused .imageTooLong)

/-- 70_reset_and_hazards.md R217: flush presents the whole pixel state and clears dirty when dirty is 1, and otherwise
presents nothing and changes nothing; it never changes pixels. -/
def Obligations.FlushPresentsAndClearsDirty : Prop :=
  ∀ s : State, ∃ t, hostStep .flush s = .next t ∧ t.fb.dirty = false ∧ t.fb.pix = s.fb.pix ∧
    t = { s with fb := t.fb } ∧ s.presented = (if s.fb.dirty then some s.fb.pix else none)

/-- 70_reset_and_hazards.md R218: tick_timers takes one from DT and stops at 0; nothing else changes. -/
def Obligations.TickStopsAtZero : Prop :=
  ∀ s : State, ∃ t, hostStep .tickTimers s = .next t ∧ t.dt.toNat = s.dt.toNat - 1 ∧ t = { s with dt := t.dt }

/-- 70_reset_and_hazards.md R219: fb_set writes one pixel of the grid and leaves dirty and everything else alone; a
coordinate outside the grid is refused, the model's choice (93_implementation_defined.md U9; log entry 6). -/
def Obligations.FbSetWritesOnePixel : Prop :=
  ∀ (px py : Nat) (b : Bool) (s : State), s.fb.Ok Params.hardware →
    (px < 64 ∧ py < 32 → ∃ t, hostStep (.fbSet px py b) s = .next t ∧
      (∀ qx qy, t.fb.get qx qy = if qx = px ∧ qy = py then b else s.fb.get qx qy) ∧
      t.fb.dirty = s.fb.dirty ∧ t.fb.Ok Params.hardware ∧ t = { s with fb := t.fb }) ∧
    (¬ (px < 64 ∧ py < 32) → hostStep (.fbSet px py b) s = .refused .pixelOutOfRange)

/-- 70_reset_and_hazards.md R216: a pass of the driver's loop on a running engine is a cycle, then a flush if dirty,
then a tick if the driver's rate asks for one: the pixels are presented when the cycle left dirty 1, dirty is 0 after
it, and nothing else of the cycle's state changes but DT. That this is so also when the cycle raised a fault is the
model's choice (log entry 20). -/
def Obligations.DriverPassFlushesAndTicks : Prop :=
  ∀ (tick : Bool) (s t : State), step s = .next t →
    ∃ u, driverPass tick s = some ((if t.fb.dirty then some t.fb.pix else none), u) ∧
      u = { t with fb := { t.fb with dirty := false }, dt := u.dt } ∧
      u.dt.toNat = if tick then t.dt.toNat - 1 else t.dt.toNat
end

