-- ==== Sys2Proof/Laws/Decode.lean ====
section
/-! SUPPORT. The fields of a word that was put together from fields, and a word put together from its own fields
(spec 30_encoding.md R81). -/

namespace Sys2Proof

/-! ### The bits of a word put together -/

theorem getLsbD_wordOfNibbles (a x y n : Nibble) (j : Nat) :
    (wordOfNibbles a x y n).getLsbD j = if j < 8 then (y ++ n).getLsbD j else (a ++ x).getLsbD (j - 8) :=
  BitVec.getLsbD_append

theorem getLsbD_wordOfImm (a : Nibble) (x : Reg) (nn : Byte) (j : Nat) :
    (wordOfImm a x nn).getLsbD j = if j < 8 then nn.getLsbD j else (a ++ x).getLsbD (j - 8) :=
  BitVec.getLsbD_append

theorem getLsbD_wordOfAddr (a : Nibble) (nnn : Addr) (j : Nat) :
    (wordOfAddr a nnn).getLsbD j = if j < 12 then nnn.getLsbD j else a.getLsbD (j - 12) :=
  BitVec.getLsbD_append

theorem getLsbD_wordOfBytes (hi lo : Byte) (j : Nat) :
    (wordOfBytes hi lo).getLsbD j = if j < 8 then lo.getLsbD j else hi.getLsbD (j - 8) :=
  BitVec.getLsbD_append

/-- A word's number from its two bytes, big-endian (20_memory.md R65). -/
theorem toNat_wordOfBytes (hi lo : Byte) : (wordOfBytes hi lo).toNat = 256 * hi.toNat + lo.toNat := by
  have h : (wordOfBytes hi lo).toNat = hi.toNat <<< 8 ||| lo.toNat := BitVec.toNat_append _ _
  rw [h, ← Nat.shiftLeft_add_eq_or_of_lt lo.isLt, Nat.shiftLeft_eq, Nat.mul_comm]

theorem getLsbD_nibbles (a b : Nibble) (j : Nat) :
    (a ++ b).getLsbD j = if j < 4 then b.getLsbD j else a.getLsbD (j - 4) :=
  BitVec.getLsbD_append

/-! ### Fields of a word put together -/

@[simp] theorem fieldN0_wordOfNibbles (a x y n : Nibble) : fieldN0 (wordOfNibbles a x y n) = a := by
  apply BitVec.eq_of_getLsbD_eq
  intro j hj
  simp only [fieldN0, BitVec.getLsbD_extractLsb', hj, decide_true, Bool.true_and, getLsbD_wordOfNibbles, getLsbD_nibbles]
  rw [if_neg (by omega), if_neg (by omega)]
  congr 1; omega

@[simp] theorem fieldX_wordOfNibbles (a x y n : Nibble) : fieldX (wordOfNibbles a x y n) = x := by
  apply BitVec.eq_of_getLsbD_eq
  intro j hj
  simp only [fieldX, BitVec.getLsbD_extractLsb', hj, decide_true, Bool.true_and, getLsbD_wordOfNibbles, getLsbD_nibbles]
  rw [if_neg (by omega), if_pos (by omega)]
  congr 1; omega

@[simp] theorem fieldY_wordOfNibbles (a x y n : Nibble) : fieldY (wordOfNibbles a x y n) = y := by
  apply BitVec.eq_of_getLsbD_eq
  intro j hj
  simp only [fieldY, BitVec.getLsbD_extractLsb', hj, decide_true, Bool.true_and, getLsbD_wordOfNibbles, getLsbD_nibbles]
  rw [if_pos (by omega), if_neg (by omega)]
  congr 1; omega

@[simp] theorem fieldN_wordOfNibbles (a x y n : Nibble) : fieldN (wordOfNibbles a x y n) = n := by
  apply BitVec.eq_of_getLsbD_eq
  intro j hj
  simp only [fieldN, BitVec.getLsbD_extractLsb', hj, decide_true, Bool.true_and, getLsbD_wordOfNibbles, getLsbD_nibbles]
  rw [if_pos (by omega), if_pos (by omega)]
  congr 1; omega

@[simp] theorem fieldN0_wordOfImm (a : Nibble) (x : Reg) (nn : Byte) : fieldN0 (wordOfImm a x nn) = a := by
  apply BitVec.eq_of_getLsbD_eq
  intro j hj
  simp only [fieldN0, BitVec.getLsbD_extractLsb', hj, decide_true, Bool.true_and, getLsbD_wordOfImm, getLsbD_nibbles]
  rw [if_neg (by omega), if_neg (by omega)]
  congr 1; omega

@[simp] theorem fieldX_wordOfImm (a : Nibble) (x : Reg) (nn : Byte) : fieldX (wordOfImm a x nn) = x := by
  apply BitVec.eq_of_getLsbD_eq
  intro j hj
  simp only [fieldX, BitVec.getLsbD_extractLsb', hj, decide_true, Bool.true_and, getLsbD_wordOfImm, getLsbD_nibbles]
  rw [if_neg (by omega), if_pos (by omega)]
  congr 1; omega

@[simp] theorem fieldNN_wordOfImm (a : Nibble) (x : Reg) (nn : Byte) : fieldNN (wordOfImm a x nn) = nn := by
  apply BitVec.eq_of_getLsbD_eq
  intro j hj
  simp only [fieldNN, BitVec.getLsbD_extractLsb', hj, decide_true, Bool.true_and, getLsbD_wordOfImm, getLsbD_nibbles]
  rw [if_pos (by omega)]
  congr 1; omega

@[simp] theorem fieldN0_wordOfAddr (a : Nibble) (nnn : Addr) : fieldN0 (wordOfAddr a nnn) = a := by
  apply BitVec.eq_of_getLsbD_eq
  intro j hj
  simp only [fieldN0, BitVec.getLsbD_extractLsb', hj, decide_true, Bool.true_and, getLsbD_wordOfAddr]
  rw [if_neg (by omega)]
  congr 1; omega

@[simp] theorem fieldNNN_wordOfAddr (a : Nibble) (nnn : Addr) : fieldNNN (wordOfAddr a nnn) = nnn := by
  apply BitVec.eq_of_getLsbD_eq
  intro j hj
  simp only [fieldNNN, BitVec.getLsbD_extractLsb', hj, decide_true, Bool.true_and, getLsbD_wordOfAddr]
  rw [if_pos (by omega)]
  congr 1; omega

/-! ### A word from its own fields -/

/-- A word is its four nibbles. -/
theorem wordOfNibbles_fields (w : Word) : wordOfNibbles (fieldN0 w) (fieldX w) (fieldY w) (fieldN w) = w := by
  apply BitVec.eq_of_getLsbD_eq
  intro j hj
  simp only [fieldN0, fieldX, fieldY, fieldN, getLsbD_wordOfNibbles, getLsbD_nibbles, BitVec.getLsbD_extractLsb']
  grind

/-- A word is its top nibble, its x and its immediate byte. -/
theorem wordOfImm_fields (w : Word) : wordOfImm (fieldN0 w) (fieldX w) (fieldNN w) = w := by
  apply BitVec.eq_of_getLsbD_eq
  intro j hj
  simp only [fieldN0, fieldX, fieldNN, getLsbD_wordOfImm, getLsbD_nibbles, BitVec.getLsbD_extractLsb']
  grind

/-- A word is its top nibble and its address. -/
theorem wordOfAddr_fields (w : Word) : wordOfAddr (fieldN0 w) (fieldNNN w) = w := by
  apply BitVec.eq_of_getLsbD_eq
  intro j hj
  simp only [fieldN0, fieldNNN, getLsbD_wordOfAddr, BitVec.getLsbD_extractLsb']
  grind

/-- The bytes of a word in memory order make the word again (20_memory.md R65). -/
theorem wordOfBytes_bytesOfWord (w : Word) : wordOfBytes (w.extractLsb' 8 8) (w.extractLsb' 0 8) = w := by
  apply BitVec.eq_of_getLsbD_eq
  intro j hj
  simp only [getLsbD_wordOfBytes, BitVec.getLsbD_extractLsb']
  grind

/-! ### The masks of the opcode table (30_encoding.md R84) -/

theorem Row.selects_iff (r : Row) (w : Word) : r.selects w = true ↔ w &&& r.mask = r.bits := by
  simp [Row.selects]

theorem and_maskFFFF (w : Word) : w &&& 0xFFFF#16 = w := by
  apply BitVec.eq_of_getLsbD_eq
  intro j hj
  have : (0xFFFF#16).getLsbD j = true := by interval_cases j <;> decide
  simp [this]

/-- The mask 0xF000 keeps N0. -/
theorem and_maskF000 (w : Word) : w &&& 0xF000#16 = wordOfAddr (fieldN0 w) 0x000#12 := by
  apply BitVec.eq_of_getLsbD_eq
  intro j hj
  have hm : (0xF000#16).getLsbD j = decide (12 ≤ j) := by interval_cases j <;> decide
  rw [BitVec.getLsbD_and, hm, getLsbD_wordOfAddr]
  simp only [fieldN0, BitVec.getLsbD_extractLsb', BitVec.getLsbD_zero]
  grind

/-- The mask 0xF00F keeps N0 and N3. -/
theorem and_maskF00F (w : Word) : w &&& 0xF00F#16 = wordOfNibbles (fieldN0 w) 0x0#4 0x0#4 (fieldN w) := by
  apply BitVec.eq_of_getLsbD_eq
  intro j hj
  have hm : (0xF00F#16).getLsbD j = (decide (12 ≤ j) || decide (j < 4)) := by interval_cases j <;> decide
  rw [BitVec.getLsbD_and, hm, getLsbD_wordOfNibbles]
  simp only [fieldN0, fieldN, getLsbD_nibbles, BitVec.getLsbD_extractLsb', BitVec.getLsbD_zero]
  grind

theorem wordOfAddr_zero_eq_iff (a : Nibble) (b : Nibble) :
    wordOfAddr a 0x000#12 = wordOfAddr b 0x000#12 ↔ a = b :=
  ⟨fun h => by simpa using congrArg fieldN0 h, fun h => by rw [h]⟩

theorem wordOfNibbles_zero_eq_iff (a n b m : Nibble) :
    wordOfNibbles a 0x0#4 0x0#4 n = wordOfNibbles b 0x0#4 0x0#4 m ↔ a = b ∧ n = m :=
  ⟨fun h => ⟨by simpa using congrArg fieldN0 h, by simpa using congrArg fieldN h⟩, fun h => by rw [h.1, h.2]⟩

/-- A row of mask 0xF000 is selected iff N0 is its nibble. -/
theorem selects_of_maskF000 (name : String) (b : Nibble) (w : Word) :
    (Row.mk name (wordOfAddr b 0x000#12) 0xF000#16).selects w = true ↔ fieldN0 w = b := by
  rw [Row.selects_iff, and_maskF000, wordOfAddr_zero_eq_iff]

/-- A row of mask 0xF00F is selected iff N0 and N3 are its nibbles. -/
theorem selects_of_maskF00F (name : String) (b m : Nibble) (w : Word) :
    (Row.mk name (wordOfNibbles b 0x0#4 0x0#4 m) 0xF00F#16).selects w = true ↔ fieldN0 w = b ∧ fieldN w = m := by
  rw [Row.selects_iff, and_maskF00F, wordOfNibbles_zero_eq_iff]

/-- A row of mask 0xFFFF is selected by its own word only. -/
theorem selects_of_maskFFFF (name : String) (b w : Word) :
    (Row.mk name b 0xFFFF#16).selects w = true ↔ w = b := by
  rw [Row.selects_iff, and_maskFFFF]

/-! ### The decoder, inverted -/

/-- The words that some condition of R104 accepts. -/
theorem recognised_iff (w : Word) : recognised w = true ↔
    w = 0x00E0#16 ∨
    w = 0x00EE#16 ∨
    fieldN0 w = 0x1#4 ∨
    fieldN0 w = 0x2#4 ∨
    fieldN0 w = 0x3#4 ∨
    fieldN0 w = 0x4#4 ∨
    (fieldN0 w = 0x5#4 ∧ fieldN w = 0x0#4) ∨
    (fieldN0 w = 0x9#4 ∧ fieldN w = 0x0#4) ∨
    fieldN0 w = 0x6#4 ∨
    fieldN0 w = 0x7#4 ∨
    fieldN0 w = 0xA#4 ∨
    (fieldN0 w = 0x8#4 ∧ fieldN w = 0x0#4) ∨
    (fieldN0 w = 0x8#4 ∧ fieldN w = 0x1#4) ∨
    (fieldN0 w = 0x8#4 ∧ fieldN w = 0x2#4) ∨
    (fieldN0 w = 0x8#4 ∧ fieldN w = 0x3#4) ∨
    (fieldN0 w = 0x8#4 ∧ fieldN w = 0x4#4) ∨
    fieldN0 w = 0xD#4 := by
  simp only [recognised, opcodeTable, List.any_cons, List.any_nil, Bool.or_eq_true, Bool.false_eq_true, or_false]
  have h0 := fun name b => selects_of_maskF000 name b w
  have h1 := fun name b m => selects_of_maskF00F name b m w
  have h2 := fun name b => selects_of_maskFFFF name b w
  exact or_congr (h2 _ _) <| or_congr (h2 _ _) <| or_congr (h0 _ 0x1#4) <| or_congr (h0 _ 0x2#4) <|
    or_congr (h0 _ 0x3#4) <| or_congr (h0 _ 0x4#4) <| or_congr (h1 _ 0x5#4 0x0#4) <| or_congr (h1 _ 0x9#4 0x0#4) <|
    or_congr (h0 _ 0x6#4) <| or_congr (h0 _ 0x7#4) <| or_congr (h0 _ 0xA#4) <| or_congr (h1 _ 0x8#4 0x0#4) <|
    or_congr (h1 _ 0x8#4 0x1#4) <| or_congr (h1 _ 0x8#4 0x2#4) <| or_congr (h1 _ 0x8#4 0x3#4) <|
    or_congr (h1 _ 0x8#4 0x4#4) (h0 _ 0xD#4)

/-- Everything the decoder can answer, and on which words (40_fetch_dispatch.md R104). -/
theorem decodeWord_cases (w : Word) :
    (w = 0x00E0#16 ∧ decodeWord w = .clearScreen) ∨
    (w = 0x00EE#16 ∧ decodeWord w = .ret) ∨
    (fieldN0 w = 0x1#4 ∧ decodeWord w = .jump (fieldNNN w)) ∨
    (fieldN0 w = 0x2#4 ∧ decodeWord w = .call (fieldNNN w)) ∨
    (fieldN0 w = 0x3#4 ∧ decodeWord w = .skipEqImm (fieldX w) (fieldNN w)) ∨
    (fieldN0 w = 0x4#4 ∧ decodeWord w = .skipNeImm (fieldX w) (fieldNN w)) ∨
    ((fieldN0 w = 0x5#4 ∧ fieldN w = 0x0#4) ∧ decodeWord w = .skipEqReg (fieldX w) (fieldY w)) ∨
    ((fieldN0 w = 0x9#4 ∧ fieldN w = 0x0#4) ∧ decodeWord w = .skipNeReg (fieldX w) (fieldY w)) ∨
    (fieldN0 w = 0x6#4 ∧ decodeWord w = .setImm (fieldX w) (fieldNN w)) ∨
    (fieldN0 w = 0x7#4 ∧ decodeWord w = .addImm (fieldX w) (fieldNN w)) ∨
    (fieldN0 w = 0xA#4 ∧ decodeWord w = .setIndex (fieldNNN w)) ∨
    ((fieldN0 w = 0x8#4 ∧ fieldN w = 0x0#4) ∧ decodeWord w = .move (fieldX w) (fieldY w)) ∨
    ((fieldN0 w = 0x8#4 ∧ fieldN w = 0x1#4) ∧ decodeWord w = .or (fieldX w) (fieldY w)) ∨
    ((fieldN0 w = 0x8#4 ∧ fieldN w = 0x2#4) ∧ decodeWord w = .and (fieldX w) (fieldY w)) ∨
    ((fieldN0 w = 0x8#4 ∧ fieldN w = 0x3#4) ∧ decodeWord w = .xor (fieldX w) (fieldY w)) ∨
    ((fieldN0 w = 0x8#4 ∧ fieldN w = 0x4#4) ∧ decodeWord w = .addCarry (fieldX w) (fieldY w)) ∨
    (fieldN0 w = 0xD#4 ∧ decodeWord w = .draw (fieldX w) (fieldY w) (fieldN w)) ∨
    (recognised w = false ∧ decodeWord w = .unrecognised w) := by
  have hr := recognised_iff w
  unfold decodeWord
  by_cases h0 : w = 0x00E0#16
  · exact .inl ⟨h0, if_pos h0⟩
  refine .inr ?_
  rw [if_neg h0]
  by_cases h1 : w = 0x00EE#16
  · exact .inl ⟨h1, if_pos h1⟩
  refine .inr ?_
  rw [if_neg h1]
  by_cases h2 : fieldN0 w = 0x1#4
  · exact .inl ⟨h2, if_pos h2⟩
  refine .inr ?_
  rw [if_neg h2]
  by_cases h3 : fieldN0 w = 0x2#4
  · exact .inl ⟨h3, if_pos h3⟩
  refine .inr ?_
  rw [if_neg h3]
  by_cases h4 : fieldN0 w = 0x3#4
  · exact .inl ⟨h4, if_pos h4⟩
  refine .inr ?_
  rw [if_neg h4]
  by_cases h5 : fieldN0 w = 0x4#4
  · exact .inl ⟨h5, if_pos h5⟩
  refine .inr ?_
  rw [if_neg h5]
  by_cases h6 : fieldN0 w = 0x5#4 ∧ fieldN w = 0x0#4
  · exact .inl ⟨h6, if_pos h6⟩
  refine .inr ?_
  rw [if_neg h6]
  by_cases h7 : fieldN0 w = 0x9#4 ∧ fieldN w = 0x0#4
  · exact .inl ⟨h7, if_pos h7⟩
  refine .inr ?_
  rw [if_neg h7]
  by_cases h8 : fieldN0 w = 0x6#4
  · exact .inl ⟨h8, if_pos h8⟩
  refine .inr ?_
  rw [if_neg h8]
  by_cases h9 : fieldN0 w = 0x7#4
  · exact .inl ⟨h9, if_pos h9⟩
  refine .inr ?_
  rw [if_neg h9]
  by_cases h10 : fieldN0 w = 0xA#4
  · exact .inl ⟨h10, if_pos h10⟩
  refine .inr ?_
  rw [if_neg h10]
  by_cases h11 : fieldN0 w = 0x8#4 ∧ fieldN w = 0x0#4
  · exact .inl ⟨h11, if_pos h11⟩
  refine .inr ?_
  rw [if_neg h11]
  by_cases h12 : fieldN0 w = 0x8#4 ∧ fieldN w = 0x1#4
  · exact .inl ⟨h12, if_pos h12⟩
  refine .inr ?_
  rw [if_neg h12]
  by_cases h13 : fieldN0 w = 0x8#4 ∧ fieldN w = 0x2#4
  · exact .inl ⟨h13, if_pos h13⟩
  refine .inr ?_
  rw [if_neg h13]
  by_cases h14 : fieldN0 w = 0x8#4 ∧ fieldN w = 0x3#4
  · exact .inl ⟨h14, if_pos h14⟩
  refine .inr ?_
  rw [if_neg h14]
  by_cases h15 : fieldN0 w = 0x8#4 ∧ fieldN w = 0x4#4
  · exact .inl ⟨h15, if_pos h15⟩
  refine .inr ?_
  rw [if_neg h15]
  by_cases h16 : fieldN0 w = 0xD#4
  · exact .inl ⟨h16, if_pos h16⟩
  refine .inr ?_
  rw [if_neg h16]
  refine ⟨?_, rfl⟩
  rw [← Bool.not_eq_true, hr]
  simp only [not_or]
  exact ⟨h0, h1, h2, h3, h4, h5, h6, h7, h8, h9, h10, h11, h12, h13, h14, h15, h16⟩

/-- A word whose N0 is not another's is another word. -/
theorem ne_of_fieldN0_ne {w c : Word} (h : fieldN0 w ≠ fieldN0 c) : w ≠ c := fun e => h (by rw [e])

end Sys2Proof
end

