-- ==== Sys2Proof/Laws/State.lean ====
section
/-! SUPPORT. The small lemmas of State: one per field per update, and the laws of the register file. No later
proof unfolds a record update. -/

namespace Sys2Proof.Machine

/-! ### State.setV -/

@[simp] theorem State.setV_v (s : State) (a : Vector Byte 16) : (s.setV a).v = a := rfl
@[simp] theorem State.setV_pc (s : State) (a : Vector Byte 16) : (s.setV a).pc = s.pc := rfl
@[simp] theorem State.setV_i (s : State) (a : Vector Byte 16) : (s.setV a).i = s.i := rfl
@[simp] theorem State.setV_opcode (s : State) (a : Vector Byte 16) : (s.setV a).opcode = s.opcode := rfl
@[simp] theorem State.setV_dt (s : State) (a : Vector Byte 16) : (s.setV a).dt = s.dt := rfl
@[simp] theorem State.setV_stack (s : State) (a : Vector Byte 16) : (s.setV a).stack = s.stack := rfl
@[simp] theorem State.setV_fb (s : State) (a : Vector Byte 16) : (s.setV a).fb = s.fb := rfl
@[simp] theorem State.setV_mem (s : State) (a : Vector Byte 16) : (s.setV a).mem = s.mem := rfl
@[simp] theorem State.setV_fault (s : State) (a : Vector Byte 16) : (s.setV a).fault = s.fault := rfl

/-! ### State.setPc -/

@[simp] theorem State.setPc_v (s : State) (a : Addr) : (s.setPc a).v = s.v := rfl
@[simp] theorem State.setPc_pc (s : State) (a : Addr) : (s.setPc a).pc = a := rfl
@[simp] theorem State.setPc_i (s : State) (a : Addr) : (s.setPc a).i = s.i := rfl
@[simp] theorem State.setPc_opcode (s : State) (a : Addr) : (s.setPc a).opcode = s.opcode := rfl
@[simp] theorem State.setPc_dt (s : State) (a : Addr) : (s.setPc a).dt = s.dt := rfl
@[simp] theorem State.setPc_stack (s : State) (a : Addr) : (s.setPc a).stack = s.stack := rfl
@[simp] theorem State.setPc_fb (s : State) (a : Addr) : (s.setPc a).fb = s.fb := rfl
@[simp] theorem State.setPc_mem (s : State) (a : Addr) : (s.setPc a).mem = s.mem := rfl
@[simp] theorem State.setPc_fault (s : State) (a : Addr) : (s.setPc a).fault = s.fault := rfl

/-! ### State.setI -/

@[simp] theorem State.setI_v (s : State) (a : Addr) : (s.setI a).v = s.v := rfl
@[simp] theorem State.setI_pc (s : State) (a : Addr) : (s.setI a).pc = s.pc := rfl
@[simp] theorem State.setI_i (s : State) (a : Addr) : (s.setI a).i = a := rfl
@[simp] theorem State.setI_opcode (s : State) (a : Addr) : (s.setI a).opcode = s.opcode := rfl
@[simp] theorem State.setI_dt (s : State) (a : Addr) : (s.setI a).dt = s.dt := rfl
@[simp] theorem State.setI_stack (s : State) (a : Addr) : (s.setI a).stack = s.stack := rfl
@[simp] theorem State.setI_fb (s : State) (a : Addr) : (s.setI a).fb = s.fb := rfl
@[simp] theorem State.setI_mem (s : State) (a : Addr) : (s.setI a).mem = s.mem := rfl
@[simp] theorem State.setI_fault (s : State) (a : Addr) : (s.setI a).fault = s.fault := rfl

/-! ### State.setOpcode -/

@[simp] theorem State.setOpcode_v (s : State) (a : Word) : (s.setOpcode a).v = s.v := rfl
@[simp] theorem State.setOpcode_pc (s : State) (a : Word) : (s.setOpcode a).pc = s.pc := rfl
@[simp] theorem State.setOpcode_i (s : State) (a : Word) : (s.setOpcode a).i = s.i := rfl
@[simp] theorem State.setOpcode_opcode (s : State) (a : Word) : (s.setOpcode a).opcode = a := rfl
@[simp] theorem State.setOpcode_dt (s : State) (a : Word) : (s.setOpcode a).dt = s.dt := rfl
@[simp] theorem State.setOpcode_stack (s : State) (a : Word) : (s.setOpcode a).stack = s.stack := rfl
@[simp] theorem State.setOpcode_fb (s : State) (a : Word) : (s.setOpcode a).fb = s.fb := rfl
@[simp] theorem State.setOpcode_mem (s : State) (a : Word) : (s.setOpcode a).mem = s.mem := rfl
@[simp] theorem State.setOpcode_fault (s : State) (a : Word) : (s.setOpcode a).fault = s.fault := rfl

/-! ### State.setDt -/

@[simp] theorem State.setDt_v (s : State) (a : Byte) : (s.setDt a).v = s.v := rfl
@[simp] theorem State.setDt_pc (s : State) (a : Byte) : (s.setDt a).pc = s.pc := rfl
@[simp] theorem State.setDt_i (s : State) (a : Byte) : (s.setDt a).i = s.i := rfl
@[simp] theorem State.setDt_opcode (s : State) (a : Byte) : (s.setDt a).opcode = s.opcode := rfl
@[simp] theorem State.setDt_dt (s : State) (a : Byte) : (s.setDt a).dt = a := rfl
@[simp] theorem State.setDt_stack (s : State) (a : Byte) : (s.setDt a).stack = s.stack := rfl
@[simp] theorem State.setDt_fb (s : State) (a : Byte) : (s.setDt a).fb = s.fb := rfl
@[simp] theorem State.setDt_mem (s : State) (a : Byte) : (s.setDt a).mem = s.mem := rfl
@[simp] theorem State.setDt_fault (s : State) (a : Byte) : (s.setDt a).fault = s.fault := rfl

/-! ### State.setStack -/

@[simp] theorem State.setStack_v (s : State) (a : CallStack) : (s.setStack a).v = s.v := rfl
@[simp] theorem State.setStack_pc (s : State) (a : CallStack) : (s.setStack a).pc = s.pc := rfl
@[simp] theorem State.setStack_i (s : State) (a : CallStack) : (s.setStack a).i = s.i := rfl
@[simp] theorem State.setStack_opcode (s : State) (a : CallStack) : (s.setStack a).opcode = s.opcode := rfl
@[simp] theorem State.setStack_dt (s : State) (a : CallStack) : (s.setStack a).dt = s.dt := rfl
@[simp] theorem State.setStack_stack (s : State) (a : CallStack) : (s.setStack a).stack = a := rfl
@[simp] theorem State.setStack_fb (s : State) (a : CallStack) : (s.setStack a).fb = s.fb := rfl
@[simp] theorem State.setStack_mem (s : State) (a : CallStack) : (s.setStack a).mem = s.mem := rfl
@[simp] theorem State.setStack_fault (s : State) (a : CallStack) : (s.setStack a).fault = s.fault := rfl

/-! ### State.setFb -/

@[simp] theorem State.setFb_v (s : State) (a : Framebuffer) : (s.setFb a).v = s.v := rfl
@[simp] theorem State.setFb_pc (s : State) (a : Framebuffer) : (s.setFb a).pc = s.pc := rfl
@[simp] theorem State.setFb_i (s : State) (a : Framebuffer) : (s.setFb a).i = s.i := rfl
@[simp] theorem State.setFb_opcode (s : State) (a : Framebuffer) : (s.setFb a).opcode = s.opcode := rfl
@[simp] theorem State.setFb_dt (s : State) (a : Framebuffer) : (s.setFb a).dt = s.dt := rfl
@[simp] theorem State.setFb_stack (s : State) (a : Framebuffer) : (s.setFb a).stack = s.stack := rfl
@[simp] theorem State.setFb_fb (s : State) (a : Framebuffer) : (s.setFb a).fb = a := rfl
@[simp] theorem State.setFb_mem (s : State) (a : Framebuffer) : (s.setFb a).mem = s.mem := rfl
@[simp] theorem State.setFb_fault (s : State) (a : Framebuffer) : (s.setFb a).fault = s.fault := rfl

/-! ### State.setMem -/

@[simp] theorem State.setMem_v (s : State) (a : Memory) : (s.setMem a).v = s.v := rfl
@[simp] theorem State.setMem_pc (s : State) (a : Memory) : (s.setMem a).pc = s.pc := rfl
@[simp] theorem State.setMem_i (s : State) (a : Memory) : (s.setMem a).i = s.i := rfl
@[simp] theorem State.setMem_opcode (s : State) (a : Memory) : (s.setMem a).opcode = s.opcode := rfl
@[simp] theorem State.setMem_dt (s : State) (a : Memory) : (s.setMem a).dt = s.dt := rfl
@[simp] theorem State.setMem_stack (s : State) (a : Memory) : (s.setMem a).stack = s.stack := rfl
@[simp] theorem State.setMem_fb (s : State) (a : Memory) : (s.setMem a).fb = s.fb := rfl
@[simp] theorem State.setMem_mem (s : State) (a : Memory) : (s.setMem a).mem = a := rfl
@[simp] theorem State.setMem_fault (s : State) (a : Memory) : (s.setMem a).fault = s.fault := rfl

/-! ### State.setFault -/

@[simp] theorem State.setFault_v (s : State) (a : Option Fault) : (s.setFault a).v = s.v := rfl
@[simp] theorem State.setFault_pc (s : State) (a : Option Fault) : (s.setFault a).pc = s.pc := rfl
@[simp] theorem State.setFault_i (s : State) (a : Option Fault) : (s.setFault a).i = s.i := rfl
@[simp] theorem State.setFault_opcode (s : State) (a : Option Fault) : (s.setFault a).opcode = s.opcode := rfl
@[simp] theorem State.setFault_dt (s : State) (a : Option Fault) : (s.setFault a).dt = s.dt := rfl
@[simp] theorem State.setFault_stack (s : State) (a : Option Fault) : (s.setFault a).stack = s.stack := rfl
@[simp] theorem State.setFault_fb (s : State) (a : Option Fault) : (s.setFault a).fb = s.fb := rfl
@[simp] theorem State.setFault_mem (s : State) (a : Option Fault) : (s.setFault a).mem = s.mem := rfl
@[simp] theorem State.setFault_fault (s : State) (a : Option Fault) : (s.setFault a).fault = a := rfl

/-! ### The register file -/

@[simp] theorem State.writeReg_pc (s : State) (r : Reg) (b : Byte) : (s.writeReg r b).pc = s.pc := rfl
@[simp] theorem State.writeReg_i (s : State) (r : Reg) (b : Byte) : (s.writeReg r b).i = s.i := rfl
@[simp] theorem State.writeReg_opcode (s : State) (r : Reg) (b : Byte) : (s.writeReg r b).opcode = s.opcode := rfl
@[simp] theorem State.writeReg_dt (s : State) (r : Reg) (b : Byte) : (s.writeReg r b).dt = s.dt := rfl
@[simp] theorem State.writeReg_stack (s : State) (r : Reg) (b : Byte) : (s.writeReg r b).stack = s.stack := rfl
@[simp] theorem State.writeReg_fb (s : State) (r : Reg) (b : Byte) : (s.writeReg r b).fb = s.fb := rfl
@[simp] theorem State.writeReg_mem (s : State) (r : Reg) (b : Byte) : (s.writeReg r b).mem = s.mem := rfl
@[simp] theorem State.writeReg_fault (s : State) (r : Reg) (b : Byte) : (s.writeReg r b).fault = s.fault := rfl

/-- A register reads what was last written to it. -/
@[simp] theorem State.readReg_writeReg_same (s : State) (r : Reg) (b : Byte) : (s.writeReg r b).readReg r = b := by
  simp [State.readReg, State.writeReg]

/-- Writing a register leaves every other register alone. -/
theorem State.readReg_writeReg_ne (s : State) {r q : Reg} (b : Byte) (h : q ≠ r) :
    (s.writeReg r b).readReg q = s.readReg q := by
  have hne : r.toNat ≠ q.toNat := fun e => h (BitVec.eq_of_toNat_eq e.symm)
  simp [State.readReg, State.writeReg, hne]

theorem State.readReg_writeReg (s : State) (r q : Reg) (b : Byte) :
    (s.writeReg r b).readReg q = if q = r then b else s.readReg q := by
  split
  · subst q; simp
  · exact s.readReg_writeReg_ne b ‹_›

/-- Two register files that read alike are equal. -/
theorem State.v_ext {s t : State} (h : ∀ r : Reg, s.readReg r = t.readReg r) : s.v = t.v := by
  refine Vector.ext fun k hk => ?_
  have := h (BitVec.ofNat 4 k)
  have hk' : k % 16 = k := Nat.mod_eq_of_lt hk
  simpa [State.readReg, hk'] using this

/-- Reading a register looks at the register file only. -/
theorem State.readReg_congr {s t : State} (h : s.v = t.v) (r : Reg) : s.readReg r = t.readReg r := by
  simp [State.readReg, h]

@[simp] theorem State.readReg_setPc (s : State) (a : Addr) (r : Reg) : (s.setPc a).readReg r = s.readReg r := rfl
@[simp] theorem State.readReg_setI (s : State) (a : Addr) (r : Reg) : (s.setI a).readReg r = s.readReg r := rfl
@[simp] theorem State.readReg_setOpcode (s : State) (a : Word) (r : Reg) : (s.setOpcode a).readReg r = s.readReg r := rfl
@[simp] theorem State.readReg_setDt (s : State) (a : Byte) (r : Reg) : (s.setDt a).readReg r = s.readReg r := rfl
@[simp] theorem State.readReg_setStack (s : State) (a : CallStack) (r : Reg) : (s.setStack a).readReg r = s.readReg r := rfl
@[simp] theorem State.readReg_setFb (s : State) (a : Framebuffer) (r : Reg) : (s.setFb a).readReg r = s.readReg r := rfl
@[simp] theorem State.readReg_setMem (s : State) (a : Memory) (r : Reg) : (s.setMem a).readReg r = s.readReg r := rfl
@[simp] theorem State.readReg_setFault (s : State) (a : Option Fault) (r : Reg) : (s.setFault a).readReg r = s.readReg r := rfl

/-! ### Skips -/

/-- On this hardware advancing pc is 12-bit addition (10_state.md R25). -/
@[simp] theorem nextPc_eq (pc : Addr) : nextPc pc = pc + 2#12 := by
  apply BitVec.eq_of_toNat_eq
  simp [nextPc, memSize]

@[simp] theorem State.skipIf_v (s : State) (b : Bool) (z : Nat) : (s.skipIf b z).v = s.v := by cases b <;> rfl
@[simp] theorem State.skipIf_i (s : State) (b : Bool) (z : Nat) : (s.skipIf b z).i = s.i := by cases b <;> rfl
@[simp] theorem State.skipIf_opcode (s : State) (b : Bool) (z : Nat) : (s.skipIf b z).opcode = s.opcode := by cases b <;> rfl
@[simp] theorem State.skipIf_dt (s : State) (b : Bool) (z : Nat) : (s.skipIf b z).dt = s.dt := by cases b <;> rfl
@[simp] theorem State.skipIf_stack (s : State) (b : Bool) (z : Nat) : (s.skipIf b z).stack = s.stack := by cases b <;> rfl
@[simp] theorem State.skipIf_fb (s : State) (b : Bool) (z : Nat) : (s.skipIf b z).fb = s.fb := by cases b <;> rfl
@[simp] theorem State.skipIf_mem (s : State) (b : Bool) (z : Nat) : (s.skipIf b z).mem = s.mem := by cases b <;> rfl
@[simp] theorem State.skipIf_fault (s : State) (b : Bool) (z : Nat) : (s.skipIf b z).fault = s.fault := by cases b <;> rfl
@[simp] theorem State.skipIf_pc (s : State) (b : Bool) (z : Nat) : (s.skipIf b z).pc = if b then nextPc s.pc z else s.pc := by
  cases b <;> rfl
@[simp] theorem State.readReg_skipIf (s : State) (b : Bool) (z : Nat) (r : Reg) : (s.skipIf b z).readReg r = s.readReg r := by
  cases b <;> rfl

/-! ### This hardware's parameters -/

@[simp] theorem hardware_memSize : Params.hardware.memSize = memSize := rfl
@[simp] theorem hardware_loadOffset : Params.hardware.loadOffset = 0x200#12 := rfl
@[simp] theorem hardware_stackCapacity : Params.hardware.stackCapacity = 16 := rfl
@[simp] theorem hardware_fbWidth : Params.hardware.fbWidth = 64 := rfl
@[simp] theorem hardware_fbHeight : Params.hardware.fbHeight = 32 := rfl
@[simp] theorem hardware_edgePolicy : Params.hardware.edgePolicy = .wrap := rfl
@[simp] theorem hardware_pop0Clears : Params.hardware.pop0Clears = false := rfl
@[simp] theorem hardware_reservedFetch : Params.hardware.reservedFetch = .fault := rfl

/-- This hardware's parameters meet the constraints of 00_scope.md R7. -/
theorem hardware_valid : Params.hardware.Valid := ⟨by decide, by decide, by decide, by decide, by decide⟩

/-! ### Running and raising -/

theorem whenRunning_of_none {s : State} (h : s.fault = none) (f : State → Result) : whenRunning s f = f s := by
  simp [whenRunning, h]

theorem whenRunning_of_some {s : State} {k : Fault} (h : s.fault = some k) (f : State → Result) :
    whenRunning s f = .fault k := by
  simp [whenRunning, h]

/-- An operation guarded by `whenRunning` that answers a next state started from a running engine. -/
theorem whenRunning_next {s t : State} {f : State → Result} (h : whenRunning s f = .next t) :
    s.fault = none ∧ f s = .next t := by
  unfold whenRunning at h
  split at h
  · exact ⟨‹_›, h⟩
  · cases h

/-! ### Reset -/

@[simp] theorem State.resetWith_readReg (p : Params) (r : Reg) : (State.resetWith p).readReg r = 0x00#8 := by
  simp [State.resetWith, State.readReg]

end Sys2Proof.Machine
end

