-- ==== Sys2Proof/Laws/Memory.lean ====
section
/-! SUPPORT. The laws of memory: read after write, a write leaves every other address alone, and every memory
operation keeps the canonical form, in which equal contents are equal data. -/

namespace Sys2Proof.Machine

@[simp] theorem Memory.byteAt_nil (a : Nat) : Memory.byteAt [] a = 0x00#8 := rfl

@[simp] theorem Memory.read_nil (a : Nat) : Memory.read [] a = 0x00#8 := rfl

/-- In canonical form from `lo` on, nothing is listed below `lo`. -/
theorem Memory.byteAt_of_lt {m : Memory} {lo a : Nat} (h : Memory.wfFrom lo m = true) (ha : a < lo) :
    m.byteAt a = 0x00#8 := by
  induction m generalizing lo with
  | nil => rfl
  | cons e m ih =>
    obtain ⟨k, c⟩ := e
    simp only [Memory.wfFrom, Bool.and_eq_true, decide_eq_true_eq] at h
    have hk : ¬ k = a := by omega
    simp [Memory.byteAt, hk, ih h.2 (by omega)]

theorem Memory.wfFrom_mono {m : Memory} {lo lo' : Nat} (h : Memory.wfFrom lo m = true) (hl : lo' ≤ lo) :
    Memory.wfFrom lo' m = true := by
  cases m with
  | nil => rfl
  | cons e m =>
    obtain ⟨k, c⟩ := e
    simp only [Memory.wfFrom, Bool.and_eq_true, decide_eq_true_eq] at h ⊢
    exact ⟨⟨⟨by omega, h.1.1.2⟩, h.1.2⟩, h.2⟩

theorem Memory.wfFrom_putAt {m : Memory} {lo a : Nat} (b : Byte) (h : Memory.wfFrom lo m = true) (hl : lo ≤ a)
    (ha : a < memSize) : Memory.wfFrom lo (m.putAt a b) = true := by
  induction m generalizing lo with
  | nil =>
    by_cases hb : b = Memory.unlisted <;> simp [Memory.putAt, Memory.wfFrom, hb, hl, ha]
  | cons e m ih =>
    obtain ⟨k, c⟩ := e
    have h0 := h
    simp only [Memory.wfFrom, Bool.and_eq_true, decide_eq_true_eq] at h
    obtain ⟨⟨⟨h1, h2⟩, h3⟩, h4⟩ := h
    unfold Memory.putAt
    split
    · by_cases hb : b = Memory.unlisted
      · simpa [hb] using h0
      · have : a + 1 ≤ k := by omega
        simp [hb, Memory.wfFrom, hl, ha, this, h2, h4, h3]
    · split
      · subst a
        by_cases hb : b = Memory.unlisted
        · simpa [hb] using Memory.wfFrom_mono h4 (by omega)
        · simp [hb, Memory.wfFrom, h1, h2, h4]
      · have := ih h4 (by omega : k + 1 ≤ a)
        simp [Memory.wfFrom, h1, h2, h3, this]

/-- Writing a byte keeps the canonical form. -/
theorem Memory.wf_write {m : Memory} (a : Nat) (b : Byte) (h : m.wf = true) : (m.write a b).wf = true :=
  Memory.wfFrom_putAt b h (Nat.zero_le _) (Nat.mod_lt _ (by decide))

theorem Memory.wf_writeBytes {m : Memory} (a : Nat) (bs : List Byte) (h : m.wf = true) :
    (m.writeBytes a bs).wf = true := by
  induction bs generalizing m a with
  | nil => exact h
  | cons b bs ih => exact ih (a + 1) (Memory.wf_write a b h)

theorem Memory.wf_writeWord {m : Memory} (a : Addr) (w : Word) (h : m.wf = true) : (m.writeWord a w).wf = true :=
  Memory.wf_writeBytes _ _ h

theorem Memory.byteAt_putAt {m : Memory} {lo : Nat} (a c : Nat) (b : Byte) (h : Memory.wfFrom lo m = true) :
    (m.putAt a b).byteAt c = if c = a then b else m.byteAt c := by
  induction m generalizing lo with
  | nil =>
    by_cases hb : b = Memory.unlisted
    · by_cases hc : c = a <;> simp [Memory.putAt, hb, hc, Memory.unlisted]
    · by_cases hc : c = a
      · simp [Memory.putAt, hb, hc, Memory.byteAt]
      · rw [Memory.putAt, if_neg hb, if_neg hc]
        simp [Memory.byteAt, Ne.symm hc]
  | cons e m ih =>
    obtain ⟨k, d⟩ := e
    simp only [Memory.wfFrom, Bool.and_eq_true, decide_eq_true_eq] at h
    obtain ⟨⟨⟨h1, h2⟩, h3⟩, h4⟩ := h
    unfold Memory.putAt
    split
    · have hm : Memory.byteAt m a = 0x00#8 := Memory.byteAt_of_lt h4 (by omega)
      by_cases hc : c = a
      · subst c
        have hk : ¬ k = a := by omega
        by_cases hb : b = Memory.unlisted
        · simp [hb, Memory.byteAt, hk, hm, Memory.unlisted]
        · simp [hb, Memory.byteAt]
      · by_cases hb : b = Memory.unlisted <;> simp [hb, Memory.byteAt, hc, Ne.symm hc]
    · split
      · subst a
        have hm : Memory.byteAt m k = 0x00#8 := Memory.byteAt_of_lt h4 (by omega)
        by_cases hc : c = k
        · subst c
          by_cases hb : b = Memory.unlisted
          · simp [hb, hm, Memory.unlisted]
          · simp [hb, Memory.byteAt]
        · by_cases hb : b = Memory.unlisted <;> simp [hb, Memory.byteAt, hc, Ne.symm hc]
      · simp only [Memory.byteAt, ih h4]
        by_cases hk : k = c
        · have : ¬ c = a := by omega
          simp [hk, this]
        · simp [hk]

/-- Read after write, at every address of the space (20_memory.md R62, R68). -/
theorem Memory.read_write {m : Memory} (h : m.wf = true) (a c : Nat) (b : Byte) :
    (m.write a b).read c = if c % memSize = a % memSize then b else m.read c :=
  Memory.byteAt_putAt _ _ b h

theorem Memory.read_mod (m : Memory) (a : Nat) : m.read (a % memSize) = m.read a := by
  simp [Memory.read]

/-- What memory reads after bytes were written from `a` on: inside the written range, the byte written there. -/
theorem Memory.read_writeBytes {m : Memory} (h : m.wf = true) (a : Nat) (bs : List Byte)
    (hfit : a + bs.length ≤ memSize) (c : Nat) (hc : c < memSize) :
    (m.writeBytes a bs).read c = if a ≤ c then bs.getD (c - a) (m.read c) else m.read c := by
  induction bs generalizing m a with
  | nil => simp [Memory.writeBytes]
  | cons b bs ih =>
    simp only [List.length_cons] at hfit
    rw [Memory.writeBytes, ih (Memory.wf_write a b h) (a + 1) (by omega), Memory.read_write h,
      Nat.mod_eq_of_lt hc, Nat.mod_eq_of_lt (by omega : a < memSize)]
    rcases Nat.lt_trichotomy c a with hlt | heq | hgt
    · have h1 : ¬ a + 1 ≤ c := by omega
      have h2 : ¬ a ≤ c := by omega
      have h3 : ¬ c = a := by omega
      simp [h1, h2, h3]
    · subst c
      simp
    · have h1 : a + 1 ≤ c := by omega
      have h2 : a ≤ c := by omega
      have h3 : ¬ c = a := by omega
      obtain ⟨j, rfl⟩ : ∃ j, c = a + 1 + j := ⟨c - (a + 1), by omega⟩
      have e1 : a + 1 + j - (a + 1) = j := by omega
      have e2 : a + 1 + j - a = j + 1 := by omega
      simp [h1, h2, h3, e1, e2]

/-- In canonical form from `lo` on, memories that read alike are equal. -/
theorem Memory.ext_from {m n : Memory} {lo : Nat} (hm : Memory.wfFrom lo m = true) (hn : Memory.wfFrom lo n = true)
    (h : ∀ a, m.byteAt a = n.byteAt a) : m = n := by
  induction m generalizing n lo with
  | nil =>
    cases n with
    | nil => rfl
    | cons e n =>
      obtain ⟨k, c⟩ := e
      have := h k
      simp only [Memory.wfFrom, Bool.and_eq_true, bne_iff_ne] at hn
      exact absurd (by simpa [Memory.byteAt, Memory.unlisted] using this.symm) hn.1.2
  | cons e m ih =>
    obtain ⟨k, c⟩ := e
    simp only [Memory.wfFrom, Bool.and_eq_true, decide_eq_true_eq, bne_iff_ne] at hm
    obtain ⟨⟨⟨h1, h2⟩, h3⟩, h4⟩ := hm
    cases n with
    | nil => exact absurd (by simpa [Memory.byteAt, Memory.unlisted] using h k) h3
    | cons e' n =>
      obtain ⟨k', c'⟩ := e'
      simp only [Memory.wfFrom, Bool.and_eq_true, decide_eq_true_eq, bne_iff_ne] at hn
      obtain ⟨⟨⟨g1, g2⟩, g3⟩, g4⟩ := hn
      have hkk : k = k' := by
        rcases Nat.lt_trichotomy k k' with hlt | heq | hgt
        · have hz : Memory.byteAt n k = 0x00#8 := Memory.byteAt_of_lt g4 (by omega)
          have hne : ¬ k' = k := by omega
          exact absurd (by simpa [Memory.byteAt, hne, hz, Memory.unlisted] using h k) h3
        · exact heq
        · have hz : Memory.byteAt m k' = 0x00#8 := Memory.byteAt_of_lt h4 (by omega)
          have hne : ¬ k = k' := by omega
          exact absurd (by simpa [Memory.byteAt, hne, hz, Memory.unlisted] using (h k').symm) g3
      subst k'
      have hcc : c = c' := by simpa [Memory.byteAt] using h k
      subst c'
      have : m = n := ih h4 g4 fun a => by
        by_cases hka : k = a
        · subst a
          rw [Memory.byteAt_of_lt h4 (by omega), Memory.byteAt_of_lt g4 (by omega)]
        · simpa [Memory.byteAt, hka] using h a
      rw [this]

/-- Canonical memories that read alike at every address are equal data. -/
theorem Memory.ext {m n : Memory} (hm : m.wf = true) (hn : n.wf = true) (h : ∀ a, a < memSize → m.read a = n.read a) :
    m = n := by
  have high : ∀ {q : Memory} {lo : Nat}, Memory.wfFrom lo q = true → ∀ a, memSize ≤ a → q.byteAt a = 0x00#8 := by
    intro q lo hq a ha
    induction q generalizing lo with
    | nil => rfl
    | cons e q ih =>
      obtain ⟨k, c⟩ := e
      simp only [Memory.wfFrom, Bool.and_eq_true, decide_eq_true_eq] at hq
      have hk : ¬ k = a := by omega
      simp [Memory.byteAt, hk, ih hq.2]
  refine Memory.ext_from hm hn fun a => ?_
  by_cases ha : a < memSize
  · simpa [Memory.read, Nat.mod_eq_of_lt ha] using h a ha
  · rw [high hm a (by omega), high hn a (by omega)]

/-- The word stored at `a` is the word read there: big-endian both ways (20_memory.md R65). -/
theorem Memory.readWord_writeWord {m : Memory} (h : m.wf = true) (a : Addr) (w : Word) :
    (m.writeWord a w).readWord a = w := by
  have ha : a.toNat < 4096 := a.isLt
  have hne : ¬ a.toNat % memSize = (a.toNat + 1) % memSize := by simp only [memSize]; omega
  have hne' : ¬ (a.toNat + 1) % memSize = a.toNat % memSize := fun e => hne e.symm
  simp only [Memory.writeWord, bytesOfWord, Memory.writeBytes, Memory.readWord]
  rw [Memory.read_write (Memory.wf_write _ _ h), Memory.read_write (Memory.wf_write _ _ h), Memory.read_write h]
  simp only [hne, if_true, if_false, wordOfBytes]
  apply BitVec.eq_of_getLsbD_eq
  intro j hj
  simp only [BitVec.getLsbD_append, BitVec.getLsbD_extractLsb']
  by_cases hj8 : j < 8
  · simp [hj8]
  · have : 8 + (j - 8) = j := by omega
    simp [hj8, this]
    omega

end Sys2Proof.Machine
end

