-- ==== Sys2Proof/Laws/Pixels.lean ====
section
/-! SUPPORT. The laws of the framebuffer and of the draw loop: what a toggle does to each pixel, what a list of
plotted targets does to each pixel (parity) and to the collision flag, and that all of it keeps the grid's shape
(spec 10_state.md R37 to R40, 44_display.md R171 to R174). -/

namespace Sys2Proof.Machine

/-! ### Single operations -/

@[simp] theorem Framebuffer.toggle_dirty (f : Framebuffer) (px py : Nat) : (f.toggle px py).dirty = f.dirty := rfl
@[simp] theorem Framebuffer.markDirty_dirty (f : Framebuffer) : f.markDirty.dirty = true := rfl
@[simp] theorem Framebuffer.markDirty_pix (f : Framebuffer) : f.markDirty.pix = f.pix := rfl
@[simp] theorem Framebuffer.get_markDirty (f : Framebuffer) (px py : Nat) : f.markDirty.get px py = f.get px py := rfl
@[simp] theorem Framebuffer.clear_dirty (p : Params) (f : Framebuffer) : (f.clear p).dirty = true := rfl

/-- A pixel of the blank grid reads 0, and so does every coordinate outside it. -/
theorem get_blankPixels (w h : Nat) (d : Bool) (px py : Nat) : (Framebuffer.mk (blankPixels w h) d).get px py = false := by
  simp only [Framebuffer.get, blankPixels]
  by_cases hx : px < w
  · by_cases hy : py < h
    · simp [hx, hy]
    · simp [hx, hy]
  · simp [hx]

/-- After a clear every pixel reads 0 (R39). -/
@[simp] theorem Framebuffer.get_clear (p : Params) (f : Framebuffer) (px py : Nat) : (f.clear p).get px py = false :=
  get_blankPixels _ _ _ _ _

/-- What each pixel reads after a toggle inside the grid (R38). -/
theorem Framebuffer.get_toggle {p : Params} {f : Framebuffer} (h : f.Ok p) {px py : Nat} (hx : px < p.fbWidth)
    (hy : py < p.fbHeight) (qx qy : Nat) :
    (f.toggle px py).get qx qy = if (px, py) = (qx, qy) then !f.get qx qy else f.get qx qy := by
  have hx' : px < f.pix.length := by rw [h.width]; exact hx
  have hcol : f.pix[px].length = p.fbHeight := h.height _ (List.getElem_mem _)
  simp only [Framebuffer.get, Framebuffer.toggle, List.getElem?_modify, Prod.mk.injEq]
  by_cases hxe : px = qx
  · subst qx
    by_cases hye : py = qy
    · subst qy
      simp [hx', hcol, hy]
    · simp [hx', hye]
  · simp [hxe]

theorem Framebuffer.Ok.toggle {p : Params} {f : Framebuffer} (h : f.Ok p) (px py : Nat) : (f.toggle px py).Ok p where
  width := by simp [Framebuffer.toggle, h.width]
  height := by
    intro column hc
    obtain ⟨k, hk⟩ := List.mem_iff_getElem?.1 hc
    simp only [Framebuffer.toggle, List.getElem?_modify] at hk
    obtain ⟨old, ho, rfl⟩ := Option.map_eq_some_iff.1 hk
    have := h.height old (List.mem_of_getElem? ho)
    split <;> simpa using this

theorem Framebuffer.Ok.clear {p : Params} (f : Framebuffer) : (f.clear p).Ok p where
  width := by simp [Framebuffer.clear, Framebuffer.markDirty, blankPixels]
  height := by
    intro column hc
    simp only [Framebuffer.clear, Framebuffer.markDirty, blankPixels, List.mem_replicate] at hc
    simp [hc.2]

theorem Framebuffer.Ok.of_pix {p : Params} {f g : Framebuffer} (h : f.Ok p) (e : g.pix = f.pix) : g.Ok p where
  width := by rw [e]; exact h.width
  height := by rw [e]; exact h.height

theorem Framebuffer.Ok.setPixel {p : Params} {f : Framebuffer} (h : f.Ok p) (px py : Nat) (b : Bool) :
    (f.setPixel px py b).Ok p where
  width := by simp [Framebuffer.setPixel, h.width]
  height := by
    intro column hc
    obtain ⟨k, hk⟩ := List.mem_iff_getElem?.1 hc
    simp only [Framebuffer.setPixel, List.getElem?_modify] at hk
    obtain ⟨old, ho, rfl⟩ := Option.map_eq_some_iff.1 hk
    have := h.height old (List.mem_of_getElem? ho)
    split <;> simpa using this

/-- What each pixel reads after `fb_set` inside the grid (70_reset_and_hazards.md R219). -/
theorem Framebuffer.get_setPixel {p : Params} {f : Framebuffer} (h : f.Ok p) {px py : Nat} (hx : px < p.fbWidth)
    (hy : py < p.fbHeight) (b : Bool) (qx qy : Nat) :
    (f.setPixel px py b).get qx qy = if (px, py) = (qx, qy) then b else f.get qx qy := by
  have hx' : px < f.pix.length := by rw [h.width]; exact hx
  have hcol : f.pix[px].length = p.fbHeight := h.height _ (List.getElem_mem _)
  simp only [Framebuffer.get, Framebuffer.setPixel, List.getElem?_modify, Prod.mk.injEq]
  by_cases hxe : px = qx
  · subst qx
    by_cases hye : py = qy
    · subst qy
      simp [hx', hcol, hy]
    · simp [hx', hye]
  · simp [hxe]

/-- Two grids of one shape that read alike are equal. -/
theorem Framebuffer.pix_ext {p : Params} {f g : Framebuffer} (hf : f.Ok p) (hg : g.Ok p)
    (h : ∀ px py, px < p.fbWidth → py < p.fbHeight → f.get px py = g.get px py) : f.pix = g.pix := by
  have hw : f.pix.length = g.pix.length := by rw [hf.width, hg.width]
  refine List.ext_getElem hw fun px h1 h2 => ?_
  have e1 : f.pix[px].length = p.fbHeight := hf.height _ (List.getElem_mem _)
  have e2 : g.pix[px].length = p.fbHeight := hg.height _ (List.getElem_mem _)
  refine List.ext_getElem (by rw [e1, e2]) fun py h3 h4 => ?_
  have := h px py (by rw [← hf.width]; exact h1) (by rw [← e1]; exact h3)
  simpa [Framebuffer.get, h1, h2, h3, h4] using this

/-! ### The draw loop -/

/-- The targets a list of set sprite bits is plotted at. -/
def drawTargets (p : Params) (bits : List (Nat × Nat)) : List (Nat × Nat) := bits.filterMap (drawTarget p)

theorem plotAll_eq (p : Params) (f : Framebuffer) (bits : List (Nat × Nat)) :
    plotAll p f bits = (drawTargets p bits).foldl plot ⟨f, flagByte false⟩ := rfl

/-- Under `Wrap` every target lies in the grid (R172, 10_state.md R37). -/
theorem drawTargets_wrap_inGrid {p : Params} (hp : p.Valid) (he : p.edgePolicy = .wrap) (bits : List (Nat × Nat)) :
    ∀ t ∈ drawTargets p bits, t.1 < p.fbWidth ∧ t.2 < p.fbHeight := by
  intro t ht
  simp only [drawTargets, List.mem_filterMap, drawTarget, he, Option.some.injEq] at ht
  obtain ⟨c, -, rfl⟩ := ht
  exact ⟨Nat.mod_lt _ hp.width_pos, Nat.mod_lt _ hp.height_pos⟩

/-- Under every policy, once the edge check of `Fault` has passed, every target lies in the grid (R172). -/
theorem drawTargets_inGrid {p : Params} (hp : p.Valid) (bits : List (Nat × Nat))
    (hf : p.edgePolicy = .fault → offEdge p bits = false) :
    ∀ t ∈ drawTargets p bits, t.1 < p.fbWidth ∧ t.2 < p.fbHeight := by
  intro t ht
  simp only [drawTargets, List.mem_filterMap] at ht
  obtain ⟨c, hc, ht⟩ := ht
  cases he : p.edgePolicy with
  | wrap =>
    simp only [drawTarget, he, Option.some.injEq] at ht
    subst t
    exact ⟨Nat.mod_lt _ hp.width_pos, Nat.mod_lt _ hp.height_pos⟩
  | clip =>
    simp only [drawTarget, he] at ht
    by_cases hn : offGrid p c = true
    · simp [hn] at ht
    · simp only [hn, Bool.false_eq_true, if_false, Option.some.injEq] at ht
      subst t
      simpa [offGrid] using hn
  | fault =>
    simp only [drawTarget, he, Option.some.injEq] at ht
    subst t
    have := hf he
    simp only [offEdge, List.any_eq_false] at this
    simpa [offGrid] using this c hc

theorem plot_fold_ok {p : Params} {c : Canvas} (h : c.fb.Ok p) (ts : List (Nat × Nat)) :
    (ts.foldl plot c).fb.Ok p := by
  induction ts generalizing c with
  | nil => exact h
  | cons t ts ih => exact ih (c := plot c t) (h.toggle _ _)

@[simp] theorem plot_fold_dirty (c : Canvas) (ts : List (Nat × Nat)) : (ts.foldl plot c).fb.dirty = c.fb.dirty := by
  induction ts generalizing c with
  | nil => rfl
  | cons t ts ih => exact ih (plot c t)

/-- A pixel after the loop: toggled once for each plotted target that is it (44_display.md R171, R176). -/
theorem get_plot_fold {p : Params} {c : Canvas} (h : c.fb.Ok p) (ts : List (Nat × Nat))
    (hin : ∀ t ∈ ts, t.1 < p.fbWidth ∧ t.2 < p.fbHeight) (qx qy : Nat) :
    (ts.foldl plot c).fb.get qx qy = (c.fb.get qx qy ^^ decide (ts.count (qx, qy) % 2 = 1)) := by
  induction ts generalizing c with
  | nil => simp
  | cons t ts ih =>
    obtain ⟨tx, ty⟩ := t
    have ht := hin (tx, ty) (by simp)
    rw [List.foldl_cons, ih (c := plot c (tx, ty)) (h.toggle _ _) fun u hu => hin u (by simp [hu])]
    show ((c.fb.toggle tx ty).get qx qy ^^ _) = _
    rw [Framebuffer.get_toggle h ht.1 ht.2, List.count_cons]
    by_cases he : (tx, ty) = (qx, qy)
    · simp only [he, if_true, beq_self_eq_true]
      rcases Nat.mod_two_eq_zero_or_one (ts.count (qx, qy)) with hm | hm
      · have : (ts.count (qx, qy) + 1) % 2 = 1 := by omega
        simp [hm, this]
      · have : (ts.count (qx, qy) + 1) % 2 = 0 := by omega
        simp [hm, this]
    · simp [he]

/-- The flag is sticky: the loop leaves VF at 0x01 if it began there. -/
theorem vf_plot_fold_of_one {c : Canvas} (h : c.vf = 0x01#8) (ts : List (Nat × Nat)) : (ts.foldl plot c).vf = 0x01#8 := by
  induction ts generalizing c with
  | nil => exact h
  | cons t ts ih =>
    refine ih (c := plot c t) ?_
    simp only [plot, collisionFlag, flagByte]
    split
    · rfl
    · exact h

/-- The flag after the loop, when no two targets share a pixel: 0x01 iff some target reads 1 before the draw
(R174). -/
theorem vf_plot_fold {p : Params} {c : Canvas} (h : c.fb.Ok p) (hv : c.vf = 0x00#8) (ts : List (Nat × Nat))
    (hin : ∀ t ∈ ts, t.1 < p.fbWidth ∧ t.2 < p.fbHeight) (hd : ts.Nodup) :
    (ts.foldl plot c).vf = flagByte (ts.any fun t => c.fb.get t.1 t.2) := by
  induction ts generalizing c with
  | nil => simpa [flagByte] using hv
  | cons t ts ih =>
    obtain ⟨tx, ty⟩ := t
    have ht := hin (tx, ty) (by simp)
    have hd' := List.nodup_cons.1 hd
    rw [List.foldl_cons]
    cases hg : c.fb.get tx ty with
    | true =>
      rw [vf_plot_fold_of_one (c := plot c (tx, ty)) (by simp [plot, collisionFlag, hg, flagByte])]
      simp [hg, flagByte]
    | false =>
      rw [ih (c := plot c (tx, ty)) (h.toggle _ _) (by simp [plot, collisionFlag, hg, hv])
        (fun u hu => hin u (by simp [hu])) hd'.2]
      simp only [List.any_cons, hg, Bool.false_or]
      congr 1
      apply Bool.eq_iff_iff.2
      simp only [List.any_eq_true]
      refine exists_congr fun u => and_congr_right fun hu => ?_
      show (c.fb.toggle tx ty).get u.1 u.2 = true ↔ _
      rw [Framebuffer.get_toggle h ht.1 ht.2, if_neg]
      intro he
      exact hd'.1 (by rw [show (tx, ty) = u from he]; exact hu)

/-- The flag after the loop, whatever targets coincide: 0x01 iff some target reads 1 before the draw, or is plotted
twice, since the second plot meets what the first left (44_display.md R171 corner case f, R174). -/
theorem vf_plot_fold_iff {p : Params} {c : Canvas} (h : c.fb.Ok p) (hv : c.vf = 0x00#8) (ts : List (Nat × Nat))
    (hin : ∀ t ∈ ts, t.1 < p.fbWidth ∧ t.2 < p.fbHeight) :
    (ts.foldl plot c).vf = 0x01#8 ↔ ∃ t ∈ ts, c.fb.get t.1 t.2 = true ∨ 2 ≤ ts.count t := by
  induction ts generalizing c with
  | nil => simp [hv]
  | cons t ts ih =>
    have ht := hin t (by simp)
    rw [List.foldl_cons]
    cases hg : c.fb.get t.1 t.2 with
    | true =>
      rw [vf_plot_fold_of_one (c := plot c t) (by simp [plot, collisionFlag, hg, flagByte])]
      exact ⟨fun _ => ⟨t, by simp, .inl hg⟩, fun _ => rfl⟩
    | false =>
      rw [ih (c := plot c t) (h.toggle _ _) (by simp [plot, collisionFlag, hg, hv]) fun u hu => hin u (by simp [hu])]
      have hget : ∀ u : Nat × Nat, (plot c t).fb.get u.1 u.2 = if t = u then !c.fb.get u.1 u.2 else c.fb.get u.1 u.2 :=
        fun u => Framebuffer.get_toggle h ht.1 ht.2 (qx := u.1) (qy := u.2)
      constructor
      · rintro ⟨u, hu, hc⟩
        by_cases he : t = u
        · subst he
          exact ⟨t, by simp, .inr (by have := List.count_pos_iff.2 hu; simp; omega)⟩
        · refine ⟨u, by simp [hu], hc.imp (fun hc => ?_) fun hc => ?_⟩
          · rwa [hget, if_neg he] at hc
          · rwa [List.count_cons_of_ne he]
      · rintro ⟨u, hu, hc⟩
        by_cases he : t = u
        · subst he
          rcases hc with hc | hc
          · rw [hg] at hc; cases hc
          · rw [List.count_cons_self] at hc
            exact ⟨t, List.count_pos_iff.1 (by omega), .inl (by rw [hget, if_pos rfl, hg]; rfl)⟩
        · have hu : u ∈ ts := (List.mem_cons.1 hu).resolve_left (Ne.symm he)
          refine ⟨u, hu, hc.imp (fun hc => ?_) fun hc => ?_⟩
          · rwa [hget, if_neg he]
          · rwa [List.count_cons_of_ne he] at hc

/-- VF after the loop is 0x00 or 0x01 (10_state.md R21). -/
theorem vf_plot_fold_is_flag {c : Canvas} (h : ∃ b, c.vf = flagByte b) (ts : List (Nat × Nat)) :
    ∃ b, (ts.foldl plot c).vf = flagByte b := by
  induction ts generalizing c with
  | nil => exact h
  | cons t ts ih =>
    refine ih (c := plot c t) ?_
    simp only [plot, collisionFlag]
    split
    · exact ⟨true, rfl⟩
    · exact h

end Sys2Proof.Machine
end

