-- ==== Sys2Proof/Laws/Stack.lean ====
section
/-! SUPPORT. The laws of the call stack: what a push and a pop do to the slots and the cursor, and that both keep
`CallStack.Ok` (spec 10_state.md R31 to R34). -/

namespace Sys2Proof.Machine

@[simp] theorem CallStack.push_top (p : Params) (k : CallStack) (a : Addr) :
    (k.push p a).top = (k.top + 1) % p.stackCapacity := rfl

@[simp] theorem CallStack.push_length (p : Params) (k : CallStack) (a : Addr) :
    (k.push p a).slot.length = k.slot.length := by
  simp [CallStack.push]

/-- What each slot holds after a push (R31). -/
theorem CallStack.slotAt_push (p : Params) (k : CallStack) (a : Addr) (h : k.top < k.slot.length) (j : Nat) :
    (k.push p a).slotAt j = if j = k.top then some a else k.slotAt j := by
  by_cases hj : j = k.top
  · subst j; simp [CallStack.push, CallStack.slotAt, h]
  · simp [CallStack.push, CallStack.slotAt, hj, List.getElem?_set_ne (Ne.symm hj)]

/-- Clearing a slot empties it and leaves the others. -/
theorem CallStack.slotAt_clear (slots : List (Option Addr)) (c top j : Nat) (old : Nat) :
    (CallStack.mk (slots.set c none) top).slotAt j = if j = c then none else (CallStack.mk slots old).slotAt j := by
  by_cases hj : j = c
  · subst j
    by_cases hl : c < slots.length
    · simp [CallStack.slotAt, hl]
    · have hn : (slots.set c none)[c]? = none := List.getElem?_eq_none (by simpa using Nat.le_of_not_lt hl)
      simp [CallStack.slotAt, hn]
  · simp [CallStack.slotAt, hj, List.getElem?_set_ne (Ne.symm hj)]

/-- The pop at top = 0 reads slot 0 (R32). -/
theorem CallStack.pop_of_top_zero {p : Params} {k : CallStack} (h : k.top = 0) :
    k.pop p = (k.slotAt 0, if p.pop0Clears then ⟨k.slot.set 0 none, 0⟩ else k) := by
  simp [CallStack.pop, h]

/-- The pop at top > 0 moves down, reads and clears (R32). -/
theorem CallStack.pop_of_top_pos {p : Params} {k : CallStack} (h : k.top ≠ 0) :
    k.pop p = (k.slotAt (k.top - 1), ⟨k.slot.set (k.top - 1) none, k.top - 1⟩) := by
  simp [CallStack.pop, h]

@[simp] theorem CallStack.pop_length (p : Params) (k : CallStack) : (k.pop p).2.slot.length = k.slot.length := by
  unfold CallStack.pop
  split
  · split <;> simp
  · simp

/-- The empty stack of a valid capacity is Ok. -/
theorem CallStack.empty_ok {p : Params} (h : 1 ≤ p.stackCapacity) : (CallStack.empty p.stackCapacity).Ok p where
  capacity := by simp [CallStack.empty]
  cursor := h
  filled := by intro j hj; exact absurd hj (Nat.not_lt_zero _)

/-- A push keeps the stack Ok (R33). -/
theorem CallStack.Ok.push {p : Params} {k : CallStack} (h : k.Ok p) (a : Addr) : (k.push p a).Ok p where
  capacity := by rw [CallStack.push_length, h.capacity]
  cursor := Nat.mod_lt _ (Nat.lt_of_le_of_lt (Nat.zero_le _) h.cursor)
  filled := by
    intro j hj
    have hc := h.cursor
    rw [CallStack.push_top] at hj
    rw [CallStack.slotAt_push p k a (by rw [h.capacity]; exact hc)]
    split
    · rfl
    · by_cases hw : k.top + 1 < p.stackCapacity
      · rw [Nat.mod_eq_of_lt hw] at hj
        exact h.filled j (by omega)
      · have he : k.top + 1 = p.stackCapacity := by omega
        rw [he, Nat.mod_self] at hj
        omega

/-- A pop keeps the stack Ok (R33). -/
theorem CallStack.Ok.pop {p : Params} {k : CallStack} (h : k.Ok p) : (k.pop p).2.Ok p := by
  by_cases ht : k.top = 0
  · rw [CallStack.pop_of_top_zero ht]
    split
    · refine ⟨by simp [h.capacity], ?_, fun j hj => absurd hj (Nat.not_lt_zero _)⟩
      exact Nat.lt_of_le_of_lt (Nat.zero_le _) h.cursor
    · exact h
  · rw [CallStack.pop_of_top_pos ht]
    have hc := h.cursor
    refine ⟨by simp [h.capacity], by show k.top - 1 < _; omega, ?_⟩
    intro j hj
    have hj' : j < k.top - 1 := hj
    rw [CallStack.slotAt_clear _ _ _ _ k.top]
    rw [if_neg (by omega)]
    exact h.filled j (by omega)

/-- On an Ok stack, Pop gives none exactly when top = 0 and slot 0 is empty (R34). -/
theorem CallStack.Ok.pop_none_iff {p : Params} {k : CallStack} (h : k.Ok p) :
    (k.pop p).1 = none ↔ k.top = 0 ∧ k.slotAt 0 = none := by
  by_cases ht : k.top = 0
  · simp [CallStack.pop_of_top_zero ht, ht]
  · rw [CallStack.pop_of_top_pos ht]
    have := h.filled (k.top - 1) (by omega)
    constructor
    · intro hn
      simp only at hn
      rw [hn] at this
      cases this
    · exact fun hn => absurd hn.1 ht

theorem CallStack.pushAll_cons (p : Params) (k : CallStack) (a : Addr) (as : List Addr) :
    k.pushAll p (a :: as) = (k.push p a).pushAll p as := rfl

theorem CallStack.Ok.pushAll {p : Params} {k : CallStack} (h : k.Ok p) (as : List Addr) : (k.pushAll p as).Ok p := by
  induction as generalizing k with
  | nil => exact h
  | cons a as ih => exact ih (h.push a)

end Sys2Proof.Machine
end

