-- ==== Sys2Proof/Laws/Exec.lean ====
section
/-! SUPPORT. One lemma per shared operation that says everything it can do: return, draw, fetch, execute, a cycle.
Provers cite these and do not unfold the operations. -/

namespace Sys2Proof.Machine

/-! ### Instructions -/

/-- This hardware's dispatch is the parametric one at this hardware's parameters. -/
theorem exec_eq_execWith (i : Instr) (s : State) : exec i s = execWith Params.hardware i s := by
  cases i <;> rfl

theorem cycleWith_hardware (s : State) : step s = cycleWith Params.hardware s := by
  have h : exec = execWith Params.hardware := funext fun i => funext fun s => exec_eq_execWith i s
  unfold step cycleWith
  rw [h]

/-- Everything a return can do (41_control.md R120). -/
theorem returnWith_cases (p : Params) (s : State) :
    ((s.stack.pop p).1 = none ∧ returnWith p s = .next (s.setFault (some .stackUnderflow))) ∨
    (∃ a, (s.stack.pop p).1 = some a ∧ returnWith p s = .next ((s.setStack (s.stack.pop p).2).setPc a)) := by
  unfold returnWith
  rcases hp : s.stack.pop p with ⟨_ | a, k⟩
  · exact .inl ⟨rfl, rfl⟩
  · exact .inr ⟨a, rfl, rfl⟩

/-- Everything a draw can do (44_display.md R171, R172). -/
theorem drawWith_cases (p : Params) (x y : Reg) (n : Nibble) (s : State) :
    (p.edgePolicy = .fault ∧ offEdge p (drawBits p x y n s) = true ∧
      drawWith p x y n s = .next (s.setFault (some .drawOutOfRange))) ∨
    ((p.edgePolicy = .fault → offEdge p (drawBits p x y n s) = false) ∧
      drawWith p x y n s = .next ((s.writeReg regF (plotAll p s.fb (drawBits p x y n s)).vf).setFb
        (plotAll p s.fb (drawBits p x y n s)).fb.markDirty)) := by
  unfold drawWith
  split
  · exact .inl ⟨‹_ ∧ _›.1, ‹_ ∧ _›.2, rfl⟩
  · rename_i h
    refine .inr ⟨fun he => ?_, rfl⟩
    simpa using fun hb => h ⟨he, hb⟩

/-- This hardware's draw never faults, because EDGE_POLICY = Wrap (R172). -/
theorem execDraw_eq (x y : Reg) (n : Nibble) (s : State) :
    execDraw x y n s = .next ((s.writeReg regF (plotAll Params.hardware s.fb (drawBits Params.hardware x y n s)).vf).setFb
      (plotAll Params.hardware s.fb (drawBits Params.hardware x y n s)).fb.markDirty) := by
  rcases drawWith_cases Params.hardware x y n s with h | h
  · exact absurd h.1 (by decide)
  · exact h.2

/-- A coordinate is a set bit of sprite row `r` iff some bit index gives it (44_display.md R171). -/
theorem mem_rowBits (size : Nat) (m : Memory) (i : Addr) (vx vy r : Nat) (c : Nat × Nat) :
    c ∈ rowBits size m i vx vy r ↔ ∃ b, b < 8 ∧ spriteBit (m.read (i.toNat + r) size) b = true ∧ c = (vx + b, vy + r) := by
  simp only [rowBits, List.mem_filterMap, List.mem_range]
  refine exists_congr fun b => and_congr_right fun _ => ?_
  by_cases h : spriteBit (m.read (i.toNat + r) size) b = true
  · simp [h, eq_comm]
  · simp [h]

/-- A coordinate is a set sprite bit iff some row and bit index give it (R171). -/
theorem mem_spriteBits (size : Nat) (m : Memory) (i : Addr) (vx vy n : Nat) (c : Nat × Nat) :
    c ∈ spriteBits size m i vx vy n ↔
      ∃ r, r < n ∧ ∃ b, b < 8 ∧ spriteBit (m.read (i.toNat + r) size) b = true ∧ c = (vx + b, vy + r) := by
  simp only [spriteBits, List.mem_flatMap, List.mem_range, mem_rowBits]

/-- A pixel is a target under `Wrap` iff a set sprite bit wraps to it (R172). -/
theorem mem_drawTargets_wrap {p : Params} (he : p.edgePolicy = .wrap) (size : Nat) (m : Memory) (i : Addr) (vx vy n : Nat)
    (t : Nat × Nat) :
    t ∈ drawTargets p (spriteBits size m i vx vy n) ↔
      ∃ r, r < n ∧ ∃ b, b < 8 ∧ spriteBit (m.read (i.toNat + r) size) b = true ∧
        t = ((vx + b) % p.fbWidth, (vy + r) % p.fbHeight) := by
  simp only [drawTargets, List.mem_filterMap, mem_spriteBits, drawTarget, he, Option.some.injEq]
  constructor
  · rintro ⟨c, ⟨r, hr, b, hb, hs, rfl⟩, rfl⟩
    exact ⟨r, hr, b, hb, hs, rfl⟩
  · rintro ⟨r, hr, b, hb, hs, rfl⟩
    exact ⟨_, ⟨r, hr, b, hb, hs, rfl⟩, rfl⟩

/-- Two offsets below the modulus that wrap alike are equal. -/
theorem offset_eq_of_mod_eq {v a b w : Nat} (ha : a < w) (hb : b < w) (h : (v + a) % w = (v + b) % w) : a = b :=
  Nat.ModEq.eq_of_lt_of_lt (Nat.ModEq.add_left_cancel' v h) ha hb

/-- No two set bits of a sprite share a coordinate before the edge policy. -/
theorem spriteBits_nodup (size : Nat) (m : Memory) (i : Addr) (vx vy n : Nat) : (spriteBits size m i vx vy n).Nodup := by
  refine List.nodup_flatMap.2 ⟨fun r _ => List.Nodup.filterMap ?_ List.nodup_range, ?_⟩
  · intro b b' c hb hb'
    by_cases h1 : spriteBit (m.read (i.toNat + r) size) b = true <;> simp [h1] at hb
    by_cases h2 : spriteBit (m.read (i.toNat + r) size) b' = true <;> simp [h2] at hb'
    have := congrArg Prod.fst (hb.trans hb'.symm)
    simp only at this
    omega
  · refine List.Pairwise.imp ?_ (List.nodup_range (n := n))
    intro r r' hne c hc hc'
    obtain ⟨b, -, -, rfl⟩ := (mem_rowBits _ _ _ _ _ _ _).1 hc
    obtain ⟨b', -, -, h⟩ := (mem_rowBits _ _ _ _ _ _ _).1 hc'
    have := congrArg Prod.snd h
    simp only at this
    omega

/-- With W >= 8 and H >= n no two set bits of one draw share a pixel (R171 corner case f). -/
theorem drawTargets_wrap_nodup {p : Params} (he : p.edgePolicy = .wrap) (hw : 8 ≤ p.fbWidth) (size : Nat) (m : Memory) (i : Addr)
    (vx vy n : Nat) (hh : n ≤ p.fbHeight) : (drawTargets p (spriteBits size m i vx vy n)).Nodup := by
  have hmap : drawTargets p (spriteBits size m i vx vy n) =
      (spriteBits size m i vx vy n).map fun c => (c.1 % p.fbWidth, c.2 % p.fbHeight) := by
    have hf : drawTarget p = some ∘ fun c => (c.1 % p.fbWidth, c.2 % p.fbHeight) := by
      funext c; simp [drawTarget, he]
    rw [drawTargets, hf, List.filterMap_eq_map]
  rw [hmap, List.nodup_map_iff_inj_on (spriteBits_nodup size m i vx vy n)]
  intro c hc d hd hcd
  obtain ⟨r, hr, b, hb, -, rfl⟩ := (mem_spriteBits _ _ _ _ _ _ _).1 hc
  obtain ⟨r', hr', b', hb', -, rfl⟩ := (mem_spriteBits _ _ _ _ _ _ _).1 hd
  simp only [Prod.mk.injEq] at hcd
  rw [offset_eq_of_mod_eq (by omega) (by omega) hcd.1, offset_eq_of_mod_eq (by omega) (by omega) hcd.2]

/-- A set bit's target is a pixel of the grid iff it lands there (R172). -/
theorem drawTarget_eq_some_iff (p : Params) (c : Nat × Nat) {px py : Nat} (hx : px < p.fbWidth) (hy : py < p.fbHeight) :
    drawTarget p c = some (px, py) ↔ landing p c.1 c.2 = (px, py) := by
  obtain ⟨cx, cy⟩ := c
  cases he : p.edgePolicy with
  | wrap => simp [drawTarget, landing, he]
  | fault => simp [drawTarget, landing, he]
  | clip =>
    simp only [drawTarget, landing, he, Prod.mk.injEq]
    by_cases h : offGrid p (cx, cy) = true
    · rw [if_pos h]
      simp only [offGrid, Bool.or_eq_true, decide_eq_true_eq] at h
      simp only [reduceCtorEq, false_iff]
      omega
    · rw [if_neg h]
      simp

/-- A draw plots a pixel of the grid once for each set bit that lands on it (R171, R172). -/
theorem count_drawTargets (p : Params) (x y : Reg) (n : Nibble) (s : State) {px py : Nat} (hx : px < p.fbWidth)
    (hy : py < p.fbHeight) :
    (drawTargets p (drawBits p x y n s)).count (px, py) = spriteHitCount p s x y n px py := by
  simp only [drawTargets, drawBits, spriteBits, spriteHitCount, List.filterMap_flatMap, List.count_flatMap]
  congr 1
  refine List.map_congr_left fun r _ => ?_
  simp only [Function.comp, rowBits, List.filterMap_filterMap, List.count, List.countP_filterMap]
  refine List.countP_congr fun b _ => ?_
  have key := drawTarget_eq_some_iff p ((s.readReg x).toNat % p.fbWidth + b, (s.readReg y).toNat % p.fbHeight + r) hx hy
  by_cases hb : spriteBit (s.mem.read (s.i.toNat + r) p.memSize) b = true
  · have hb' : spriteHasBit p s r b = true := hb
    simp only [hb, hb', if_true, Option.bind_some, Bool.true_and, decide_eq_true_eq, bitLanding, ← key]
    cases drawTarget p _ <;> simp
  · have hb' : spriteHasBit p s r b = false := Bool.eq_false_iff.2 hb
    simp [hb, hb']

/-- A pixel of the grid is plotted iff some set bit lands on it (R171, R172). -/
theorem spriteHits_iff_mem (p : Params) (x y : Reg) (n : Nibble) (s : State) {px py : Nat} (hx : px < p.fbWidth)
    (hy : py < p.fbHeight) : SpriteHits p s x y n px py ↔ (px, py) ∈ drawTargets p (drawBits p x y n s) := by
  simp only [drawTargets, List.mem_filterMap, drawTarget_eq_some_iff p _ hx hy, drawBits, mem_spriteBits, SpriteHits]
  constructor
  · rintro ⟨r, hr, b, hb, hs, hl⟩
    exact ⟨_, ⟨r, hr, b, hb, hs, rfl⟩, hl⟩
  · rintro ⟨c, ⟨r, hr, b, hb, hs, rfl⟩, hl⟩
    exact ⟨r, hr, b, hb, hs, hl⟩

/-! ### Fetch, execute, cycle -/

@[simp] theorem State.fetched_fault (s : State) (z : Nat) : (s.fetched z).fault = s.fault := rfl
@[simp] theorem State.fetched_opcode (s : State) (z : Nat) : (s.fetched z).opcode = s.mem.readWord s.pc z := rfl
@[simp] theorem State.fetched_pc (s : State) (z : Nat) : (s.fetched z).pc = nextPc s.pc z := rfl
@[simp] theorem State.fetched_mem (s : State) (z : Nat) : (s.fetched z).mem = s.mem := rfl
@[simp] theorem State.fetched_stack (s : State) (z : Nat) : (s.fetched z).stack = s.stack := rfl
@[simp] theorem State.fetched_fb (s : State) (z : Nat) : (s.fetched z).fb = s.fb := rfl
@[simp] theorem State.fetched_dt (s : State) (z : Nat) : (s.fetched z).dt = s.dt := rfl
@[simp] theorem State.fetched_i (s : State) (z : Nat) : (s.fetched z).i = s.i := rfl
@[simp] theorem State.fetched_v (s : State) (z : Nat) : (s.fetched z).v = s.v := rfl
@[simp] theorem State.readReg_fetched (s : State) (z : Nat) (r : Reg) : (s.fetched z).readReg r = s.readReg r := rfl

/-- On this hardware a fetch that raises nothing stores the word and moves pc on by 12-bit addition (R100). -/
theorem State.fetched_eq (s : State) :
    s.fetched = { s with opcode := s.mem.readWord s.pc, pc := s.pc + 2#12 } :=
  congrArg (s.setOpcode (s.mem.readWord s.pc)).setPc (nextPc_eq s.pc)

/-- When a fetch raises ReservedFetch (20_memory.md R64, R101). -/
theorem fetchReserved_iff (p : Params) (pc : Addr) :
    fetchReserved p pc = true ↔ p.reservedFetch = .fault ∧
      (pc.toNat < p.loadOffset.toNat ∨ (pc.toNat + 1) % p.memSize < p.loadOffset.toNat) := by
  simp [fetchReserved]

/-- Everything a fetch can do (40_fetch_dispatch.md R100, R101, R109). -/
theorem fetchWith_cases (p : Params) (s : State) :
    (∃ k, s.fault = some k ∧ fetchWith p s = .fault k) ∨
    (s.fault = none ∧ fetchReserved p s.pc = true ∧ fetchWith p s = .next (s.setFault (some .reservedFetch))) ∨
    (s.fault = none ∧ fetchReserved p s.pc = false ∧ fetchWith p s = .next (s.fetched p.memSize)) := by
  cases hf : s.fault with
  | some k => exact .inl ⟨k, rfl, whenRunning_of_some hf _⟩
  | none =>
    refine .inr ?_
    unfold fetchWith
    rw [whenRunning_of_none hf]
    cases hr : fetchReserved p s.pc with
    | true => exact .inl ⟨rfl, rfl, by simp [raiseFault]⟩
    | false => exact .inr ⟨rfl, rfl, by simp⟩

/-- Everything a cycle can do (R107, R109). -/
theorem cycleVia_cases (p : Params) (perform : Instr → State → Result) (s : State) :
    (∃ k, s.fault = some k ∧ cycleVia p perform s = .fault k) ∨
    (s.fault = none ∧ fetchReserved p s.pc = true ∧
      cycleVia p perform s = .next (s.setFault (some .reservedFetch))) ∨
    (s.fault = none ∧ fetchReserved p s.pc = false ∧
      cycleVia p perform s = perform (decodeWord (s.mem.readWord s.pc p.memSize)) (s.fetched p.memSize)) := by
  rcases fetchWith_cases p s with ⟨k, hf, h⟩ | ⟨hf, hr, h⟩ | ⟨hf, hr, h⟩
  · exact .inl ⟨k, hf, by simp [cycleVia, h]⟩
  · exact .inr (.inl ⟨hf, hr, by simp [cycleVia, h]⟩)
  · refine .inr (.inr ⟨hf, hr, ?_⟩)
    simp [cycleVia, h, hf, executeVia, whenRunning]

/-- Everything a step can do (R107, R109). -/
theorem step_cases (s : State) :
    (∃ k, s.fault = some k ∧ step s = .fault k) ∨
    (s.fault = none ∧ fetchReserved Params.hardware s.pc = true ∧
      step s = .next (s.setFault (some .reservedFetch))) ∨
    (s.fault = none ∧ fetchReserved Params.hardware s.pc = false ∧
      step s = exec (decodeWord (s.mem.readWord s.pc)) s.fetched) :=
  cycleVia_cases _ _ _

/-- Everything an execute can do (R102, R109). -/
theorem execute_cases (s : State) :
    (∃ k, s.fault = some k ∧ execute s = .fault k) ∨
    (s.fault = none ∧ execute s = exec (decodeWord s.opcode) s) := by
  cases hf : s.fault with
  | some k => exact .inl ⟨k, rfl, whenRunning_of_some hf _⟩
  | none => exact .inr ⟨rfl, whenRunning_of_none hf _⟩

end Sys2Proof.Machine
end

