-- ==== Sys2Proof/Laws/PerInstr.lean ====
section
/-! SUPPORT. The family EncodesToItsRow: the word of a well-formed term selects the row of the opcode table that the
term's mnemonic names, and an unrecognised term's word selects none (spec 30_encoding.md R84). -/

/-- The word of a well-formed term and the table's row for it. -/
def Sys2Proof.Laws.EncodesToItsRow.Statement (i : Sys2Proof.Instr) : Prop :=
  i.wf = true →
    (∃ r ∈ Sys2Proof.opcodeTable, r.mnemonic = i.mnemonic ∧ r.selects (Sys2Proof.encode i) = true) ∨
    (i.mnemonic = "(unrecognised)" ∧ Sys2Proof.recognised (Sys2Proof.encode i) = false)

namespace Sys2Proof.Laws

theorem EncodesToItsRow.clearScreen : EncodesToItsRow.Statement .clearScreen :=
  fun _ => .inl ⟨⟨"clear-screen", 0x00E0, 0xFFFF⟩, by decide, rfl, by decide⟩

theorem EncodesToItsRow.ret : EncodesToItsRow.Statement .ret :=
  fun _ => .inl ⟨⟨"return", 0x00EE, 0xFFFF⟩, by decide, rfl, by decide⟩

theorem EncodesToItsRow.jump (nnn : Addr) : EncodesToItsRow.Statement (.jump nnn) :=
  fun _ => .inl ⟨⟨"jump", 0x1000, 0xF000⟩, by decide, rfl, (selects_of_maskF000 _ 0x1#4 _).2 (by simp [encode])⟩

theorem EncodesToItsRow.call (nnn : Addr) : EncodesToItsRow.Statement (.call nnn) :=
  fun _ => .inl ⟨⟨"call", 0x2000, 0xF000⟩, by decide, rfl, (selects_of_maskF000 _ 0x2#4 _).2 (by simp [encode])⟩

theorem EncodesToItsRow.skipEqImm (x : Reg) (nn : Byte) : EncodesToItsRow.Statement (.skipEqImm x nn) :=
  fun _ => .inl ⟨⟨"skip-eq-imm", 0x3000, 0xF000⟩, by decide, rfl, (selects_of_maskF000 _ 0x3#4 _).2 (by simp [encode])⟩

theorem EncodesToItsRow.skipNeImm (x : Reg) (nn : Byte) : EncodesToItsRow.Statement (.skipNeImm x nn) :=
  fun _ => .inl ⟨⟨"skip-ne-imm", 0x4000, 0xF000⟩, by decide, rfl, (selects_of_maskF000 _ 0x4#4 _).2 (by simp [encode])⟩

theorem EncodesToItsRow.skipEqReg (x y : Reg) : EncodesToItsRow.Statement (.skipEqReg x y) :=
  fun _ => .inl ⟨⟨"skip-eq-reg", 0x5000, 0xF00F⟩, by decide, rfl,
    (selects_of_maskF00F _ 0x5#4 0x0#4 _).2 (by simp [encode])⟩

theorem EncodesToItsRow.skipNeReg (x y : Reg) : EncodesToItsRow.Statement (.skipNeReg x y) :=
  fun _ => .inl ⟨⟨"skip-ne-reg", 0x9000, 0xF00F⟩, by decide, rfl,
    (selects_of_maskF00F _ 0x9#4 0x0#4 _).2 (by simp [encode])⟩

theorem EncodesToItsRow.setImm (x : Reg) (nn : Byte) : EncodesToItsRow.Statement (.setImm x nn) :=
  fun _ => .inl ⟨⟨"set-imm", 0x6000, 0xF000⟩, by decide, rfl, (selects_of_maskF000 _ 0x6#4 _).2 (by simp [encode])⟩

theorem EncodesToItsRow.addImm (x : Reg) (nn : Byte) : EncodesToItsRow.Statement (.addImm x nn) :=
  fun _ => .inl ⟨⟨"add-imm", 0x7000, 0xF000⟩, by decide, rfl, (selects_of_maskF000 _ 0x7#4 _).2 (by simp [encode])⟩

theorem EncodesToItsRow.setIndex (nnn : Addr) : EncodesToItsRow.Statement (.setIndex nnn) :=
  fun _ => .inl ⟨⟨"set-index", 0xA000, 0xF000⟩, by decide, rfl, (selects_of_maskF000 _ 0xA#4 _).2 (by simp [encode])⟩

theorem EncodesToItsRow.move (x y : Reg) : EncodesToItsRow.Statement (.move x y) :=
  fun _ => .inl ⟨⟨"move", 0x8000, 0xF00F⟩, by decide, rfl,
    (selects_of_maskF00F _ 0x8#4 0x0#4 _).2 (by simp [encode])⟩

theorem EncodesToItsRow.or (x y : Reg) : EncodesToItsRow.Statement (.or x y) :=
  fun _ => .inl ⟨⟨"or", 0x8001, 0xF00F⟩, by decide, rfl,
    (selects_of_maskF00F _ 0x8#4 0x1#4 _).2 (by simp [encode])⟩

theorem EncodesToItsRow.and (x y : Reg) : EncodesToItsRow.Statement (.and x y) :=
  fun _ => .inl ⟨⟨"and", 0x8002, 0xF00F⟩, by decide, rfl,
    (selects_of_maskF00F _ 0x8#4 0x2#4 _).2 (by simp [encode])⟩

theorem EncodesToItsRow.xor (x y : Reg) : EncodesToItsRow.Statement (.xor x y) :=
  fun _ => .inl ⟨⟨"xor", 0x8003, 0xF00F⟩, by decide, rfl,
    (selects_of_maskF00F _ 0x8#4 0x3#4 _).2 (by simp [encode])⟩

theorem EncodesToItsRow.addCarry (x y : Reg) : EncodesToItsRow.Statement (.addCarry x y) :=
  fun _ => .inl ⟨⟨"add-carry", 0x8004, 0xF00F⟩, by decide, rfl,
    (selects_of_maskF00F _ 0x8#4 0x4#4 _).2 (by simp [encode])⟩

theorem EncodesToItsRow.draw (x y : Reg) (n : Nibble) : EncodesToItsRow.Statement (.draw x y n) :=
  fun _ => .inl ⟨⟨"draw", 0xD000, 0xF000⟩, by decide, rfl, (selects_of_maskF000 _ 0xD#4 _).2 (by simp [encode])⟩

theorem EncodesToItsRow.unrecognised (w : Word) : EncodesToItsRow.Statement (.unrecognised w) :=
  fun h => .inr ⟨rfl, by simpa [Instr.wf, encode] using h⟩

end Sys2Proof.Laws
end

