-- ==== Sys2Proof/Tests/Slice0.lean ====
section
/-! SUPPORT. The model's own tests. Every expected value of a `test_` theorem comes from spec 95_test_vectors.md
(the vector is named in the docstring) or from the rule named there, worked by hand. A `witness_` theorem shows a
concrete state and operands that meet the hypotheses of the obligation it is named after. -/

open Sys2Proof Sys2Proof.Machine

namespace Sys2Proof.Tests

/-! ### Helpers -/

/-- The check holds of the next state that an operation answers. -/
def ok (r : Result) (check : State → Bool) : Bool :=
  match r with
  | .next t => check t
  | .fault _ => false
  | .refused _ => false

/-- The operation answers exactly this next state. -/
def gives (r : Result) (t : State) : Bool := ok r fun u => decide (u = t)

/-- Reset with these bytes from the address `a` on. -/
def withBytes (a : Nat) (bs : List Byte) : State := State.reset.setMem (Memory.writeBytes [] a bs)

/-- The pixels that read 1, on a grid of `w` by `h`. -/
def litOn (w h : Nat) (on : List (Nat × Nat)) (f : Framebuffer) : Bool :=
  f.pix == (List.range w).map fun px => (List.range h).map fun py => on.contains (px, py)

/-- The pixels that read 1, on this hardware's grid. -/
def lit (on : List (Nat × Nat)) (f : Framebuffer) : Bool := litOn 64 32 on f

/-- The stack after the pushes of 95_test_vectors.md K1: 0x300, 0x302, .., 0x31E. -/
def fullStack : CallStack := ⟨(List.range 16).map fun k => some (BitVec.ofNat 12 (0x300 + 2 * k)), 0⟩

/-- The state of the display vectors: I = 0x300, the sprite bytes there, and V0, V1. -/
def drawState (sprite : List Byte) (v0 v1 : Byte) : State :=
  (((withBytes 0x300 sprite).setI 0x300#12).writeReg 0x0#4 v0).writeReg 0x1#4 v1

/-- This hardware but for the edge policy. -/
def edge (e : EdgePolicy) : Params := { Params.hardware with edgePolicy := e }

/-! ### WellFormed -/

/-- The one check refuses an `unrecognised` term whose word a named row matches. -/
theorem test_wf_refuses_recognised_word :
    (Instr.unrecognised 0x00E0#16).wf = false ∧ (Instr.unrecognised 0x1234#16).wf = false ∧
    (Instr.unrecognised 0x8FF4#16).wf = false ∧ (Instr.unrecognised 0xD000#16).wf = false := by decide

/-- And admits one whose word none matches (F13). -/
theorem test_wf_admits_unrecognised_word :
    (Instr.unrecognised 0xF10A#16).wf = true ∧ (Instr.unrecognised 0x00E1#16).wf = true ∧
    (Instr.unrecognised 0x5AB1#16).wf = true ∧ (Instr.unrecognised 0x8015#16).wf = true := by decide

/-! ### Decode: the words of F15, bit by bit from the patterns of 30_encoding.md R84 -/

theorem test_decode_display_and_return :
    decode [0b00000000#8, 0b11100000#8] = .ok (.clearScreen, []) ∧
    decode [0b00000000#8, 0b11101110#8] = .ok (.ret, []) ∧
    decode [0b11011010#8, 0b10110101#8] = .ok (.draw 0xA#4 0xB#4 0x5#4, []) := by decide

theorem test_decode_jump_and_call :
    decode [0b00011111#8, 0b11111111#8] = .ok (.jump 0xFFF#12, []) ∧
    decode [0b00100000#8, 0b00000000#8] = .ok (.call 0x000#12, []) ∧
    decode [0b00100010#8, 0b00001000#8] = .ok (.call 0x208#12, []) := by decide

theorem test_decode_skips :
    decode [0b00111010#8, 0b00001011#8] = .ok (.skipEqImm 0xA#4 0x0B#8, []) ∧
    decode [0b01001010#8, 0b00001011#8] = .ok (.skipNeImm 0xA#4 0x0B#8, []) ∧
    decode [0b01011010#8, 0b10110000#8] = .ok (.skipEqReg 0xA#4 0xB#4, []) ∧
    decode [0b10011010#8, 0b10110000#8] = .ok (.skipNeReg 0xA#4 0xB#4, []) := by decide

theorem test_decode_immediate_and_index :
    decode [0b01101010#8, 0b00001011#8] = .ok (.setImm 0xA#4 0x0B#8, []) ∧
    decode [0b01111010#8, 0b00001011#8] = .ok (.addImm 0xA#4 0x0B#8, []) ∧
    decode [0b10101111#8, 0b11111111#8] = .ok (.setIndex 0xFFF#12, []) := by decide

theorem test_decode_alu :
    decode [0b10001010#8, 0b10110000#8] = .ok (.move 0xA#4 0xB#4, []) ∧
    decode [0b10001010#8, 0b10110001#8] = .ok (.or 0xA#4 0xB#4, []) ∧
    decode [0b10001010#8, 0b10110010#8] = .ok (.and 0xA#4 0xB#4, []) ∧
    decode [0b10001010#8, 0b10110011#8] = .ok (.xor 0xA#4 0xB#4, []) ∧
    decode [0b10001010#8, 0b10110100#8] = .ok (.addCarry 0xA#4 0xB#4, []) := by decide

/-- Every word of F13 is unrecognised. -/
theorem test_decode_unrecognised :
    ([0x0000#16, 0x0123, 0x00E1, 0x00EF, 0x5121, 0x912F, 0x8015, 0x8016, 0x8017, 0x801E, 0x801F, 0xB123,
      0xC1FF, 0xE19E, 0xE1A1, 0xF10A, 0xF133, 0xF155, 0xFFFF].all fun w => decodeWord w == .unrecognised w) = true := by
  rfl

/-- The bytes after the first two are left over; one byte or none is no instruction (30_encoding.md R80). -/
theorem test_decode_takes_two_bytes :
    decode [0x60#8, 0x11#8, 0x61#8] = .ok (.setImm 0x0#4 0x11#8, [0x61#8]) ∧
    decode [0x60#8] = .error .needsTwoBytes ∧ decode [] = .error .needsTwoBytes := by decide

/-- The host's numbering of a table word: bits 15..0 of the one word. -/
theorem test_decode_table_word :
    decodeTableWord 16 0x6A0B = some (.setImm 0xA#4 0x0B#8) ∧ decodeTableWord 16 0x00EE = some .ret := by decide

/-! ### Fetch, execute and the cycle -/

/-- F1: big-endian. -/
theorem test_fetch_big_endian :
    gives (fetch (withBytes 0x200 [0xAB, 0xCD]))
      (((withBytes 0x200 [0xAB, 0xCD]).setOpcode 0xABCD#16).setPc 0x202#12) = true := by decide

/-- F2: an odd pc is legal. -/
theorem test_step_odd_pc :
    ok (step ((withBytes 0x201 [0x61, 0x22, 0x00, 0x00]).setPc 0x201#12)) (fun t =>
      t.opcode == 0x6122#16 && t.readReg 0x1#4 == 0x22#8 && t.pc == 0x203#12) = true := by decide

/-- F3: pc wraps. -/
theorem test_fetch_wraps_pc :
    ok (fetch ((withBytes 0xFFE [0x12, 0x34]).setPc 0xFFE#12)) (fun t =>
      t.opcode == 0x1234#16 && t.pc == 0x000#12 && t.fault == none) = true := by decide

/-- F5, F6: the second byte of 0xFFF is at 0x000; and 0x1FE. A reserved fetch changes only `fault`. -/
theorem test_fetch_reserved :
    gives (fetch (State.reset.setPc 0xFFF#12)) ((State.reset.setPc 0xFFF#12).setFault (some .reservedFetch)) = true ∧
    gives (step (State.reset.setPc 0x1FE#12)) ((State.reset.setPc 0x1FE#12).setFault (some .reservedFetch)) = true := by
  decide

/-- F7, F8: under RESERVED_FETCH = Execute the same fetches run. -/
theorem test_fetch_reserved_executes :
    ok (cycleWith { Params.hardware with reservedFetch := .execute }
      (((withBytes 0xFFF [0x61]).setPc 0xFFF#12).writeReg 0x1#4 0x09#8)) (fun t =>
        t.opcode == 0x6100#16 && t.readReg 0x1#4 == 0x00#8 && t.pc == 0x001#12 && t.fault == none) = true ∧
    ok (cycleWith { Params.hardware with reservedFetch := .execute } (State.reset.setPc 0x1FE#12)) (fun t =>
        t.opcode == 0x0000#16 && t.pc == 0x200#12 && t.fault == none) = true := by decide

/-- F14: a faulted engine has no successor state. -/
theorem test_faulted_engine_stops :
    step (State.reset.setFault (some .stackUnderflow)) = .fault .stackUnderflow ∧
    execute (State.reset.setFault (some .stackUnderflow)) = .fault .stackUnderflow := ⟨rfl, rfl⟩

/-- F13, R106: an unrecognised word changes nothing. -/
theorem test_unrecognised_is_no_op :
    gives (exec (.unrecognised 0xF10A#16) (drawState [0xF0] 0x41 0x22)) (drawState [0xF0] 0x41 0x22) = true := by decide

/-! ### Control transfer -/

/-- T1, T2. -/
theorem test_return :
    ok (exec .ret ((State.reset.setStack ⟨some 0x204#12 :: List.replicate 15 none, 1⟩).setPc 0x20A#12)) (fun t =>
      t.pc == 0x204#12 && t.stack == CallStack.empty 16 && t.fault == none) = true ∧
    gives (exec .ret (State.reset.setPc 0x202#12))
      ((State.reset.setPc 0x202#12).setFault (some .stackUnderflow)) = true := by decide

/-- T3, T4: a return at top = 0 with slot 0 filled; POP0_CLEARS = true empties it. -/
theorem test_return_at_top_zero :
    ok (exec .ret (State.reset.setStack fullStack)) (fun t => t.pc == 0x300#12 && t.stack == fullStack) = true ∧
    ok (returnWith { Params.hardware with pop0Clears := true } (State.reset.setStack fullStack)) (fun t =>
      t.pc == 0x300#12 && t.stack.slotAt 0 == none &&
      ok (returnWith { Params.hardware with pop0Clears := true } t) fun u =>
        u.pc == 0x300#12 && u.fault == some .stackUnderflow) = true := by decide

/-- T5. -/
theorem test_jump :
    ok (exec (.jump 0x234#12) (State.reset.setPc 0x202#12)) (fun t => t.pc == 0x234#12) = true := by decide

/-- T9, T10. -/
theorem test_call :
    ok (exec (.call 0x208#12) (State.reset.setPc 0x204#12)) (fun t =>
      t.pc == 0x208#12 && t.stack == ⟨some 0x204#12 :: List.replicate 15 none, 1⟩) = true ∧
    ok (exec (.call 0x300#12) ((State.reset.setStack ⟨fullStack.slot.set 15 none, 15⟩).setPc 0x210#12)) (fun t =>
      t.pc == 0x300#12 && t.stack == ⟨fullStack.slot.set 15 (some 0x210#12), 0⟩) = true := by decide

/-- T12, T13. -/
theorem test_skip_eq_imm :
    ok (exec (.skipEqImm 0x3#4 0xFF#8) ((State.reset.writeReg 0x3#4 0xFF#8).setPc 0x202#12))
      (fun t => t.pc == 0x204#12) = true ∧
    ok (exec (.skipEqImm 0x3#4 0xFF#8) ((State.reset.writeReg 0x3#4 0xFE#8).setPc 0x202#12))
      (fun t => t.pc == 0x202#12) = true := by decide

/-- T14, T15. -/
theorem test_skip_ne_imm :
    ok (exec (.skipNeImm 0x3#4 0xFF#8) ((State.reset.writeReg 0x3#4 0xFE#8).setPc 0x202#12))
      (fun t => t.pc == 0x204#12) = true ∧
    ok (exec (.skipNeImm 0x3#4 0xFF#8) ((State.reset.writeReg 0x3#4 0xFF#8).setPc 0x202#12))
      (fun t => t.pc == 0x202#12) = true := by decide

/-- T16, T17. -/
theorem test_skip_eq_reg :
    ok (exec (.skipEqReg 0x1#4 0x2#4) (((State.reset.writeReg 0x1#4 0x07#8).writeReg 0x2#4 0x07#8).setPc 0x202#12))
      (fun t => t.pc == 0x204#12) = true ∧
    ok (exec (.skipEqReg 0x1#4 0x2#4) (((State.reset.writeReg 0x1#4 0x07#8).writeReg 0x2#4 0x08#8).setPc 0x202#12))
      (fun t => t.pc == 0x202#12) = true := by decide

/-- T19, T20. -/
theorem test_skip_ne_reg :
    ok (exec (.skipNeReg 0x1#4 0x2#4) (((State.reset.writeReg 0x1#4 0x07#8).writeReg 0x2#4 0x08#8).setPc 0x202#12))
      (fun t => t.pc == 0x204#12) = true ∧
    ok (exec (.skipNeReg 0x1#4 0x2#4) (((State.reset.writeReg 0x1#4 0x07#8).writeReg 0x2#4 0x07#8).setPc 0x202#12))
      (fun t => t.pc == 0x202#12) = true := by decide

/-! ### Immediate and index -/

/-- M1. -/
theorem test_set_imm : gives (exec (.setImm 0xA#4 0x42#8) State.reset) (State.reset.writeReg 0xA#4 0x42#8) = true := by
  decide

/-- S2: the sum wraps and VF keeps its value; with x = F it wraps in VF. -/
theorem test_add_imm_wraps :
    ok (exec (.addImm 0x0#4 0x80#8) ((State.reset.writeReg 0x0#4 0x80#8).writeReg 0xF#4 0x01#8)) (fun t =>
      t.readReg 0x0#4 == 0x00#8 && t.readReg 0xF#4 == 0x01#8) = true ∧
    ok (exec (.addImm 0xF#4 0x01#8) (State.reset.writeReg 0xF#4 0xFF#8)) (fun t =>
      t.readReg 0xF#4 == 0x00#8) = true := by decide

/-- M6. -/
theorem test_set_index : gives (exec (.setIndex 0x123#12) State.reset) (State.reset.setI 0x123#12) = true := by decide

/-! ### ALU -/

/-- A1. -/
theorem test_move :
    ok (exec (.move 0x0#4 0x1#4) ((State.reset.writeReg 0x0#4 0x12#8).writeReg 0x1#4 0x34#8)) (fun t =>
      t.readReg 0x0#4 == 0x34#8 && t.readReg 0x1#4 == 0x34#8 && t.readReg 0xF#4 == 0x00#8) = true := by decide

/-- A2; A19 (x = F: the result, no flag). -/
theorem test_or :
    ok (exec (.or 0x0#4 0x1#4) (((State.reset.writeReg 0x0#4 0xF0#8).writeReg 0x1#4 0x0F#8).writeReg 0xF#4 0x07#8))
      (fun t => t.readReg 0x0#4 == 0xFF#8 && t.readReg 0xF#4 == 0x07#8) = true ∧
    ok (exec (.or 0xF#4 0x3#4) (State.reset.writeReg 0x3#4 0x5A#8)) (fun t => t.readReg 0xF#4 == 0x5A#8) = true := by
  decide

/-- A3. -/
theorem test_and :
    ok (exec (.and 0x0#4 0x1#4) (((State.reset.writeReg 0x0#4 0xF0#8).writeReg 0x1#4 0x3C#8).writeReg 0xF#4 0x07#8))
      (fun t => t.readReg 0x0#4 == 0x30#8 && t.readReg 0xF#4 == 0x07#8) = true := by decide

/-- A4, A5. -/
theorem test_xor :
    ok (exec (.xor 0x0#4 0x1#4) ((State.reset.writeReg 0x0#4 0xFF#8).writeReg 0x1#4 0x0F#8))
      (fun t => t.readReg 0x0#4 == 0xF0#8 && t.readReg 0xF#4 == 0x00#8) = true ∧
    ok (exec (.xor 0x0#4 0x0#4) (State.reset.writeReg 0x0#4 0x5A#8)) (fun t => t.readReg 0x0#4 == 0x00#8) = true := by
  decide

/-- A7, A8: the carry, and a sum of 0xFF without one. -/
theorem test_add_carry :
    ok (exec (.addCarry 0x0#4 0x1#4) ((State.reset.writeReg 0x0#4 0xFF#8).writeReg 0x1#4 0x01#8)) (fun t =>
      t.readReg 0x0#4 == 0x00#8 && t.readReg 0xF#4 == 0x01#8) = true ∧
    ok (exec (.addCarry 0x0#4 0x1#4) (((State.reset.writeReg 0x0#4 0x80#8).writeReg 0x1#4 0x7F#8).writeReg 0xF#4 0x01#8))
      (fun t => t.readReg 0x0#4 == 0xFF#8 && t.readReg 0xF#4 == 0x00#8) = true := by decide

/-- A14 (x = F: the carry wins over the sum), A15 (y = F), A16 (x = y). -/
theorem test_add_carry_aliases :
    ok (exec (.addCarry 0xF#4 0x1#4) ((State.reset.writeReg 0xF#4 0x10#8).writeReg 0x1#4 0x01#8)) (fun t =>
      t.readReg 0xF#4 == 0x00#8) = true ∧
    ok (exec (.addCarry 0x0#4 0xF#4) ((State.reset.writeReg 0x0#4 0x10#8).writeReg 0xF#4 0xF5#8)) (fun t =>
      t.readReg 0x0#4 == 0x05#8 && t.readReg 0xF#4 == 0x01#8) = true ∧
    ok (exec (.addCarry 0x2#4 0x2#4) (State.reset.writeReg 0x2#4 0x81#8)) (fun t =>
      t.readReg 0x2#4 == 0x02#8 && t.readReg 0xF#4 == 0x01#8) = true := by decide

/-! ### Display -/

/-- D1. -/
theorem test_clear_screen :
    ok (exec .clearScreen ((State.reset.writeReg 0xF#4 0x07#8).setFb ((State.reset.fb.toggle 5 3).toggle 63 31)))
      (fun t => lit [] t.fb && t.fb.dirty && t.readReg 0xF#4 == 0x07#8) = true := by decide +kernel

/-- D2 (the first bit is the leftmost), D3 (the second draw restores and reports). -/
theorem test_draw_twice :
    ok (exec (.draw 0x0#4 0x1#4 0x1#4) (drawState [0xF0] 0x01 0x02)) (fun t =>
      lit [(1, 2), (2, 2), (3, 2), (4, 2)] t.fb && t.readReg 0xF#4 == 0x00#8 && t.fb.dirty &&
      ok (exec (.draw 0x0#4 0x1#4 0x1#4) t) fun u => lit [] u.fb && u.readReg 0xF#4 == 0x01#8) = true := by decide +kernel

/-- D5: V[x] with x = F is read before VF is cleared. D8, D9: Wrap. D15: the sprite address wraps. -/
theorem test_draw_corners :
    ok (exec (.draw 0xF#4 0x1#4 0x1#4) ((drawState [0x80] 0x00 0x03).writeReg 0xF#4 0x05#8)) (fun t =>
      lit [(5, 3)] t.fb && t.readReg 0xF#4 == 0x00#8) = true ∧
    ok (exec (.draw 0x0#4 0x1#4 0x1#4) (drawState [0xFF] 0x3E 0x00)) (fun t =>
      lit [(62, 0), (63, 0), (0, 0), (1, 0), (2, 0), (3, 0), (4, 0), (5, 0)] t.fb) = true ∧
    ok (exec (.draw 0x0#4 0x1#4 0x3#4) (drawState [0x80, 0x80, 0x80] 0x00 0x1F)) (fun t =>
      lit [(0, 31), (0, 0), (0, 1)] t.fb) = true ∧
    ok (exec (.draw 0x0#4 0x0#4 0x2#4) ((withBytes 0xFFF [0x80]).setI 0xFFF#12)) (fun t =>
      lit [(0, 0)] t.fb) = true := by decide +kernel

/-- D10, D11: Clip. D12, D14: Fault counts only set bits. D17: a grid lower than the sprite. -/
theorem test_draw_other_parameters :
    ok (drawWith (edge .clip) 0x0#4 0x1#4 0x1#4 (drawState [0xFF] 0x3E 0x00)) (fun t =>
      lit [(62, 0), (63, 0)] t.fb) = true ∧
    ok (drawWith (edge .clip) 0x0#4 0x1#4 0x3#4 (drawState [0x80, 0x80, 0x80] 0x00 0x1F)) (fun t =>
      lit [(0, 31)] t.fb) = true ∧
    ok (drawWith (edge .fault) 0x0#4 0x1#4 0x1#4 ((drawState [0xFF] 0x3E 0x00).writeReg 0xF#4 0x07#8)) (fun t =>
      t.fault == some .drawOutOfRange && lit [] t.fb && !t.fb.dirty && t.readReg 0xF#4 == 0x07#8) = true ∧
    ok (drawWith (edge .fault) 0x0#4 0x1#4 0x1#4 (drawState [0xC0] 0x3E 0x00)) (fun t =>
      lit [(62, 0), (63, 0)] t.fb && t.fault == none) = true ∧
    ok (drawWith { Params.hardware with fbHeight := 4 } 0x0#4 0x1#4 0x5#4
      ((drawState [0x80, 0x80, 0x80, 0x80, 0x80] 0x00 0x00).setFb ⟨blankPixels 64 4, false⟩)) (fun t =>
      litOn 64 4 [(0, 1), (0, 2), (0, 3)] t.fb && t.readReg 0xF#4 == 0x01#8) = true := by decide +kernel

/-! ### Host operations -/

/-- R213 to R215 with LOAD_OFFSET = 0xFFE, so that the longest image has 2 bytes; and H4, an empty image. -/
theorem test_load_bounds :
    loadWith { Params.hardware with loadOffset := 0xFFE#12 } [0x11#8, 0x22#8, 0x33#8] State.reset
      = .refused .imageTooLong ∧
    ok (loadWith { Params.hardware with loadOffset := 0xFFE#12 } [0x11#8, 0x22#8] State.reset) (fun t =>
      t.mem == [(0xFFE, 0x11#8), (0xFFF, 0x22#8)]) = true ∧
    gives (hostStep (.load []) State.reset) State.reset = true := ⟨rfl, by decide, by decide⟩

/-- H5 to H8, and a tick of a timer that is not 0 (R218). -/
theorem test_flush_tick_set :
    ok (hostStep .flush (State.reset.setFb (State.reset.fb.toggle 5 3).markDirty)) (fun t =>
      lit [(5, 3)] t.fb && !t.fb.dirty) = true ∧
    gives (hostStep .flush State.reset) State.reset = true ∧
    gives (hostStep .tickTimers State.reset) State.reset = true ∧
    gives (hostStep .tickTimers (State.reset.setDt 0x01#8)) State.reset = true ∧
    ok (hostStep (.fbSet 3 4 true) State.reset) (fun t => lit [(3, 4)] t.fb && !t.fb.dirty) = true := by decide +kernel

/-! ### Witnesses: for each obligation with hypotheses, a state and operands that meet them all -/

/-- A state other than reset: a program byte, a register and I are set. -/
def sample : State := ((withBytes 0x300 [0xF0]).setI 0x300#12).writeReg 0x1#4 0x07#8

theorem sample_grid : sample.fb.Ok Params.hardware := ⟨by rfl, by decide +kernel⟩

theorem sample_stack : sample.stack.Ok Params.hardware :=
  ⟨by rfl, by decide, fun _ h => absurd h (Nat.not_lt_zero _)⟩

theorem sample_inv : sample.Inv Params.hardware where
  stack := sample_stack
  grid := sample_grid
  memory := by decide
  reserved := fun a h => by
    have h : a < 512 := h
    have e : a % memSize = a := Nat.mod_eq_of_lt (Nat.lt_trans h (by decide))
    have n : 0x300 ≠ a := fun e => absurd (e ▸ h : 0x300 < 512) (by decide)
    show Memory.byteAt [(0x300, 0xF0#8)] (a % memSize) = 0x00#8
    rw [e]; exact if_neg n
  timer := rfl
  record := trivial

/-- A stack with two addresses of at most 16. -/
def twoDeep : CallStack := ⟨some 0x204#12 :: some 0x210#12 :: List.replicate 14 none, 2⟩

theorem twoDeep_ok : twoDeep.Ok Params.hardware := ⟨by rfl, by decide, by decide⟩

/-- A stack filled up to its last slot but one. -/
def almostFull : CallStack := ⟨fullStack.slot.set 15 none, 15⟩

theorem almostFull_ok : almostFull.Ok Params.hardware := ⟨by rfl, by decide, by decide⟩

/-- The smallest parameters but for the grid, which a sprite row still fits. -/
def smallParams : Params :=
  { memSize := 4096, loadOffset := 0x001#12, stackCapacity := 1, fbWidth := 8, fbHeight := 15, edgePolicy := .clip,
    pop0Clears := true, reservedFetch := .execute }

theorem smallParams_valid : smallParams.Valid := ⟨by decide, by decide, by decide, by decide, by decide⟩

/-- The sprite 0xF0 at the last column, so that bits 1 to 3 lie past the right edge. -/
def atTheEdge : State := drawState [0xF0] 0x3F 0x1F

theorem atTheEdge_hits : SpriteHits Params.hardware atTheEdge 0x0#4 0x1#4 0x1#4 0 31 :=
  ⟨0, by decide, 1, by decide, by decide, by decide⟩

theorem atTheEdge_off (e : EdgePolicy) : SpriteOffEdge (edge e) atTheEdge 0x0#4 0x1#4 0x1#4 :=
  ⟨0, by decide, 1, by decide, by cases e <;> decide, .inl (by cases e <;> decide)⟩

theorem sample_not_off (e : EdgePolicy) : ¬ SpriteOffEdge (edge e) sample 0x0#4 0x1#4 0x1#4 := by
  rintro ⟨r, hr, b, hb, -, h⟩
  have hr : r < 1 := hr
  have h : 64 ≤ 0 % 64 + b ∨ 32 ≤ 7 % 32 + r := h
  omega

theorem witness_DecodeEncodeRoundTrip :
    (Instr.draw 0xF#4 0xF#4 0xF#4).wf = true ∧ (Instr.unrecognised 0x5AB1#16).wf = true := by decide

theorem witness_OpcodeRowsAreDisjoint :
    (⟨"add-carry", 0x8004, 0xF00F⟩ : Row) ∈ opcodeTable ∧ Row.selects ⟨"add-carry", 0x8004, 0xF00F⟩ 0x8FF4#16 = true := by
  decide

/-- The last reserved pc, the last pc, and the first that is not reserved. -/
theorem witness_FetchReadsWordAndAdvancesPc :
    Params.hardware.memSize = 4096 ∧ smallParams.memSize = 4096 ∧ (State.reset.setPc 0x1FF#12).Running ∧ Params.hardware.reservedFetch = .fault ∧
    ((State.reset.setPc 0x1FF#12).pc.toNat < Params.hardware.loadOffset.toNat) ∧
    ((State.reset.setPc 0xFFF#12).pc.toNat + 1) % 4096 < Params.hardware.loadOffset.toNat ∧
    ¬ (sample.pc.toNat < Params.hardware.loadOffset.toNat ∨
        (sample.pc.toNat + 1) % 4096 < Params.hardware.loadOffset.toNat) ∧
    ¬ smallParams.reservedFetch = .fault := ⟨rfl, rfl, rfl, by decide⟩

theorem witness_FetchFaultsExactlyInReservedRegion :
    (State.reset.setPc 0x1FF#12).Running ∧ (State.reset.setPc 0x1FF#12).pc.toNat < 0x200 ∧
    (State.reset.setPc 0xFFF#12).Running ∧ (State.reset.setPc 0xFFF#12).pc.toNat = 0xFFF := ⟨rfl, by decide, rfl, rfl⟩

/-- The last pc a fetch can take. -/
theorem witness_StepRunsDecodedInstruction :
    ((withBytes 0xFFE [0x12, 0x34]).setPc 0xFFE#12).Fetchable ∧
    decode [((withBytes 0xFFE [0x12, 0x34]).setPc 0xFFE#12).mem.read 0xFFE,
      ((withBytes 0xFFE [0x12, 0x34]).setPc 0xFFE#12).mem.read (0xFFE + 1)] = .ok (.jump 0x234#12, []) :=
  ⟨⟨rfl, by decide, by decide⟩, by decide⟩

theorem witness_FaultingFetchSkipsExecute :
    fetch (sample.setPc 0xFFF#12) = .next ((sample.setPc 0xFFF#12).setFault (some .reservedFetch)) ∧
    ((sample.setPc 0xFFF#12).setFault (some .reservedFetch)).fault ≠ none := ⟨rfl, by decide⟩

theorem witness_FaultedEngineHasNoStep :
    (sample.setFault (some .stackUnderflow)).fault = some .stackUnderflow := rfl

theorem witness_OnlyResetClearsTheFault :
    (sample.setFault (some .stackUnderflow)).fault = some .stackUnderflow ∧ HostOp.tickTimers ≠ .reset ∧
    hostStep .tickTimers (sample.setFault (some .stackUnderflow)) = .next (sample.setFault (some .stackUnderflow)) :=
  ⟨rfl, by decide, rfl⟩

/-- 0x7001 executed again, as in F9. -/
theorem witness_ExecuteWithoutFetchReexecutes :
    (sample.setOpcode 0x7001#16).Running ∧
    execute (sample.setOpcode 0x7001#16) = .next ((sample.setOpcode 0x7001#16).writeReg 0x0#4 0x01#8) ∧
    ((sample.setOpcode 0x7001#16).writeReg 0x0#4 0x01#8).Running := ⟨rfl, rfl, rfl⟩

/-- The last pc from which both fetches run. -/
theorem witness_TwoFetchesDiscardTheFirstWord :
    (sample.setPc 0xFFC#12).Fetchable ∧ (sample.setPc 0xFFC#12).pc.toNat + 2 < 0xFFF :=
  ⟨⟨rfl, by decide, by decide⟩, by decide⟩

theorem witness_StoredWordIsTheNextInstruction :
    (sample.setPc 0xFFE#12).Fetchable ∧ (sample.setPc 0xFFE#12).mem.wf = true ∧
    (0x300 < 4096 ∧ 0x300 ≠ (sample.setPc 0xFFE#12).pc.toNat ∧ 0x300 ≠ (sample.setPc 0xFFE#12).pc.toNat + 1) :=
  ⟨⟨rfl, by decide, by decide⟩, by decide, by decide⟩

theorem witness_UnrecognisedWordIsANoOp :
    (withBytes 0x200 [0xB1, 0x23]).Fetchable ∧
    recognised ((withBytes 0x200 [0xB1, 0x23]).mem.read 0x200 ++ (withBytes 0x200 [0xB1, 0x23]).mem.read (0x200 + 1))
      = false := ⟨⟨rfl, by decide, by decide⟩, by decide⟩

/-- T6: the jump at 0x200 to 0x200. -/
theorem witness_JumpToSelfLoopsForever :
    (withBytes 0x200 [0x12, 0x00]).Fetchable ∧
    (withBytes 0x200 [0x12, 0x00]).mem.read 0x200 ++ (withBytes 0x200 [0x12, 0x00]).mem.read (0x200 + 1)
      = 0x1#4 ++ (withBytes 0x200 [0x12, 0x00]).pc := ⟨⟨rfl, by decide, by decide⟩, by decide⟩

theorem witness_NoInstructionWritesOpcodeTimerOrMemory :
    exec (.setImm 0x3#4 0x42#8) sample = .next (sample.writeReg 0x3#4 0x42#8) := rfl

/-- A destination V[x] (or 0xF by set-imm), and VF as the side effect of add-carry. -/
theorem witness_RegisterWritersAreTheTable :
    (exec (.setImm 0xF#4 0x42#8) sample = .next (sample.writeReg 0xF#4 0x42#8) ∧
      (sample.writeReg 0xF#4 0x42#8).readReg 0xF#4 ≠ sample.readReg 0xF#4) ∧
    ok (exec (.addCarry 0x0#4 0x1#4) (sample.writeReg 0x0#4 0xF9#8)) (fun t =>
      decide (t.readReg 0xF#4 ≠ (sample.writeReg 0x0#4 0xF9#8).readReg 0xF#4)) = true := ⟨⟨rfl, by decide⟩, by decide⟩

/-- A jump, and a skip that is taken at the last pc. -/
theorem witness_OnlyControlTransferWritesPc :
    (exec (.jump 0x234#12) sample = .next (sample.setPc 0x234#12) ∧ (sample.setPc 0x234#12).pc ≠ sample.pc) ∧
    (exec (.skipEqReg 0x5#4 0x5#4) (sample.setPc 0xFFE#12) = .next (sample.setPc 0x000#12) ∧
      (sample.setPc 0x000#12).pc ≠ (sample.setPc 0xFFE#12).pc) := ⟨⟨rfl, by decide⟩, rfl, by decide⟩

theorem witness_WritersOfIndexStackAndDisplay :
    ok (exec (.setIndex 0x123#12) sample) (fun t => decide (t.i ≠ sample.i)) = true ∧
    ok (exec (.call 0x300#12) sample) (fun t => decide (t.stack ≠ sample.stack)) = true ∧
    ok (exec (.draw 0x0#4 0x1#4 0x1#4) sample) (fun t => decide (t.fb ≠ sample.fb)) = true ∧
    (sample.setFb sample.fb.markDirty).fb.dirty = true := by decide +kernel

theorem witness_OnlyReturnRaisesDuringExecute :
    exec .ret sample = .next (sample.setFault (some .stackUnderflow)) ∧
    exec (.jump 0xFFF#12) sample = .next (sample.setPc 0xFFF#12) := ⟨rfl, rfl⟩

theorem witness_NoInstructionReadsTimerOpcodeOrDirty :
    exec (.addImm 0x1#4 0xFF#8) sample = .next (sample.writeReg 0x1#4 0x06#8) := rfl

theorem witness_OnlyDrawReadsIndexAndMemory :
    (∀ x y n, Instr.setIndex 0xFFF#12 ≠ .draw x y n) ∧ exec (.setIndex 0xFFF#12) sample = .next (sample.setI 0xFFF#12) :=
  ⟨fun _ _ _ h => Instr.noConfusion h, rfl⟩

theorem witness_ReturnPopsTheSlotBelowTop :
    twoDeep.Ok Params.hardware ∧ twoDeep.top ≠ 0 ∧ twoDeep.slotAt (twoDeep.top - 1) = some 0x210#12 :=
  ⟨twoDeep_ok, by decide, rfl⟩

theorem witness_ReturnAtTopZeroKeepsTheStack :
    (sample.setStack fullStack).stack.top = 0 ∧ (sample.setStack fullStack).stack.slotAt 0 = some 0x300#12 := ⟨rfl, rfl⟩

theorem witness_ReturnUnderflowsExactlyWhenEmpty :
    sample.stack.Ok Params.hardware ∧ sample.Running ∧ sample.stack.top = 0 ∧ sample.stack.slotAt 0 = none :=
  ⟨sample_stack, rfl, rfl, rfl⟩

/-- The last reserved address, and 0xFFF. -/
theorem witness_JumpSetsPc :
    sample.Running ∧ ((0x1FF#12 : Addr).toNat < 0x200 ∨ (0x1FF#12 : Addr) = 0xFFF#12) ∧
    ((0xFFF#12 : Addr).toNat < 0x200 ∨ (0xFFF#12 : Addr) = 0xFFF#12) := ⟨rfl, by decide, by decide⟩

/-- The last slot. -/
theorem witness_CallPushesTheReturnAddress :
    (sample.setStack almostFull).stack.slot.length = 16 ∧ (sample.setStack almostFull).stack.top < 16 ∧
    (sample.setStack almostFull).stack.top = 15 := by decide

/-- The highest cursor from which the return comes back: 14. -/
theorem witness_CallThenReturnRestoresPc :
    (⟨fullStack.slot.set 14 none, 14⟩ : CallStack).Ok Params.hardware ∧ 14 + 1 < 16 ∧
    exec (.call 0x300#12) (sample.setStack ⟨fullStack.slot.set 14 none, 14⟩)
      = .next ((sample.setStack (CallStack.push Params.hardware ⟨fullStack.slot.set 14 none, 14⟩ sample.pc)).setPc 0x300#12) :=
  ⟨⟨by rfl, by decide, by decide⟩, by decide, rfl⟩

theorem witness_CallAtTheLastSlotReturnsToTheOldest :
    almostFull.Ok Params.hardware ∧ almostFull.top = 15 ∧ almostFull.slotAt 0 = some 0x300#12 ∧
    exec (.call 0x300#12) (sample.setStack almostFull)
      = .next ((sample.setStack (almostFull.push Params.hardware sample.pc)).setPc 0x300#12) :=
  ⟨almostFull_ok, rfl, rfl, rfl⟩

/-- This hardware's K, and the least K, 2. -/
theorem witness_PushingOnePastCapacityOverwritesTheOldest :
    2 ≤ Params.hardware.stackCapacity ∧ (List.replicate 15 0x302#12).length + 1 = Params.hardware.stackCapacity ∧
    2 ≤ ({ Params.hardware with stackCapacity := 2 } : Params).stackCapacity ∧
    [0x302#12].length + 1 = ({ Params.hardware with stackCapacity := 2 } : Params).stackCapacity := by decide

/-- This hardware, and K = 1 with POP0_CLEARS = true. -/
theorem witness_PoppingAFullStackReturnsTheOldest :
    (List.replicate 15 0x302#12).length + 1 = Params.hardware.stackCapacity ∧ Params.hardware.pop0Clears = false ∧
    ([] : List Addr).length + 1 = smallParams.stackCapacity ∧ smallParams.pop0Clears = true := by decide

/-- Two slots used, and pushes up to the last that does not wrap. -/
theorem witness_StackIsLastInFirstOutBelowCapacity :
    twoDeep.slot.length = Params.hardware.stackCapacity ∧
    twoDeep.top + (List.replicate 13 0x300#12).length < Params.hardware.stackCapacity := by decide

theorem witness_AddImmWrapsWithoutFlag : (0xE#4 : Reg) ≠ 0xF#4 := by decide

theorem witness_AddCarryReportsTheCarry :
    (0x0#4 : Reg) ≠ 0xF#4 ∧
    256 ≤ ((sample.writeReg 0x0#4 0xF9#8).readReg 0x0#4).toNat + ((sample.writeReg 0x0#4 0xF9#8).readReg 0x1#4).toNat ∧
    ¬ 256 ≤ ((sample.writeReg 0x0#4 0xF8#8).readReg 0x0#4).toNat + ((sample.writeReg 0x0#4 0xF8#8).readReg 0x1#4).toNat := by
  decide

/-- A sprite past the right edge, with and without a collision. -/
theorem witness_DrawXorsTheSpriteAndReportsCollision :
    atTheEdge.fb.Ok Params.hardware ∧ SpriteHits Params.hardware atTheEdge 0x0#4 0x1#4 0x1#4 0 31 ∧
    atTheEdge.fb.get 0 31 = false ∧ ((atTheEdge.setFb (atTheEdge.fb.toggle 0 31)).fb.get 0 31 = true) :=
  ⟨sample_grid, atTheEdge_hits, by decide +kernel⟩

/-- Another memory that differs only outside the sprite. -/
theorem witness_DrawReadsOnlyTheSpriteBytes :
    ok (exec (.draw 0x0#4 0x1#4 0x1#4) sample) (fun _ => true) = true ∧
    (∀ r, r < (0x1#4 : Nibble).toNat → (sample.mem.write 0x301 0xFF#8).read ((sample.i.toNat + r) % 4096)
      = sample.mem.read ((sample.i.toNat + r) % 4096)) ∧ sample.mem.write 0x301 0xFF#8 ≠ sample.mem := by decide +kernel

theorem witness_DrawingTwiceRestoresThePixels :
    sample.fb.Ok Params.hardware ∧
    ok (exec (.draw 0x0#4 0x1#4 0x1#4) sample) (fun t => t.readReg 0x0#4 == sample.readReg 0x0#4 &&
      t.readReg 0x1#4 == sample.readReg 0x1#4 && t.i == sample.i && t.mem == sample.mem) = true ∧
    sample.fb.get 63 31 = false := ⟨sample_grid, by decide +kernel⟩

theorem witness_DrawUnderFaultPolicyIsPrecise :
    (edge .fault).edgePolicy = .fault ∧ SpriteOffEdge (edge .fault) atTheEdge 0x0#4 0x1#4 0x1#4 ∧
    ¬ SpriteOffEdge (edge .fault) sample 0x0#4 0x1#4 0x1#4 := ⟨rfl, atTheEdge_off .fault, sample_not_off .fault⟩

/-- The three policies; under Fault, a sprite inside the grid; and the smallest grid that the premises admit for 15
rows. -/
theorem witness_DrawUnderEveryEdgePolicy :
    (∀ e, (edge e).Valid ∧ 8 ≤ (edge e).fbWidth ∧ (0xF#4 : Nibble).toNat ≤ (edge e).fbHeight ∧ sample.fb.Ok (edge e) ∧
      ¬ SpriteOffEdge (edge e) sample 0x0#4 0x1#4 0x1#4) ∧
    smallParams.Valid ∧ 8 ≤ smallParams.fbWidth ∧ (0xF#4 : Nibble).toNat ≤ smallParams.fbHeight :=
  ⟨fun e => ⟨⟨rfl, (by decide : 0 < 0x200), (by decide : 1 ≤ 16), (by decide : 1 ≤ 64), (by decide : 1 ≤ 32)⟩,
    (by decide : 8 ≤ 64), (by decide : 15 ≤ 32), ⟨sample_grid.1, sample_grid.2⟩, sample_not_off e⟩,
    smallParams_valid, by decide⟩

/-- The grid of D17, lower than the sprite, where two set bits land on (0, 0); and a grid of one pixel, where eight
do. -/
theorem witness_DrawTogglesOncePerSetBitOnAnyGrid :
    ({ Params.hardware with fbHeight := 4 } : Params).Valid ∧
    (⟨blankPixels 64 4, false⟩ : Framebuffer).Ok { Params.hardware with fbHeight := 4 } ∧
    spriteHitCount { Params.hardware with fbHeight := 4 } (drawState [0x80, 0x80, 0x80, 0x80, 0x80] 0x00 0x00)
      0x0#4 0x1#4 0x5#4 0 0 = 2 ∧
    ({ Params.hardware with fbWidth := 1, fbHeight := 1 } : Params).Valid ∧
    spriteHitCount { Params.hardware with fbWidth := 1, fbHeight := 1 } (drawState [0xFF] 0x00 0x00)
      0x0#4 0x1#4 0x1#4 0 0 = 8 ∧
    ((edge .fault).Valid ∧ sample.fb.Ok (edge .fault) ∧ ¬ SpriteOffEdge (edge .fault) sample 0x0#4 0x1#4 0x1#4) :=
  ⟨⟨rfl, by decide, by decide, by decide, by decide⟩, ⟨by rfl, by decide +kernel⟩, by decide,
    ⟨rfl, by decide, by decide, by decide, by decide⟩, by decide,
    ⟨rfl, by decide, by decide, by decide, by decide⟩, ⟨sample_grid.1, sample_grid.2⟩, sample_not_off .fault⟩

theorem witness_StepKeepsTheInvariant :
    sample.Inv Params.hardware ∧ ok (step sample) (fun t => decide (t ≠ sample)) = true := ⟨sample_inv, by decide⟩

theorem witness_HostOperationsKeepTheInvariant :
    sample.Inv Params.hardware ∧ ok (hostStep (.load [0x12#8, 0x00#8]) sample) (fun t => decide (t ≠ sample)) = true :=
  ⟨sample_inv, by decide⟩

/-- This hardware's parameters, a run under the smallest, and one that records DrawOutOfRange. -/
theorem witness_CycleKeepsTheInvariantForEveryParameters :
    sample.Inv Params.hardware ∧ ok (cycleWith Params.hardware sample) (fun t => decide (t ≠ sample)) = true ∧
    ok (cycleWith smallParams (State.resetWith smallParams)) (fun t => t.pc == 0x003#12) = true ∧
    ok (cycleWith (edge .fault) ((withBytes 0x200 [0xD0, 0x11, 0xFF]).setI 0x202#12 |>.writeReg 0x0#4 0x3F#8)) (fun t =>
      t.fault == some .drawOutOfRange && t.opcode == 0xD011#16 && t.pc == 0x202#12) = true :=
  ⟨sample_inv, by decide, by decide, by decide +kernel⟩

/-- A state other than reset, and one that records the underflow of P4. -/
theorem witness_WhatEveryReachableStateMeets :
    Reachable (State.reset.setMem [(0x201, 0xEE#8)]) ∧
    Reachable (((State.reset.setMem [(0x201, 0xEE#8)]).fetched).setFault (some .stackUnderflow)) := by
  have h : Reachable (State.reset.setMem [(0x201, 0xEE#8)]) := .op (.load [0x00#8, 0xEE#8]) .reset rfl
  have h' : Reachable (State.reset.setMem [(0x201, 0xEE#8)]).fetched := .op .fetch h rfl
  exact ⟨h, .op .execute h' rfl⟩

/-- A load that replaces the sample's byte; the shortest image that is too long. -/
theorem witness_LoadWritesTheImageOrIsRefused :
    sample.mem.wf = true ∧ (List.replicate 0x101 0x00#8).length ≤ 3584 ∧ 3584 < (List.replicate 3585 0x00#8).length :=
  ⟨by decide, by rw [List.length_replicate]; decide, by rw [List.length_replicate]; decide⟩

/-- The last pixel, and a coordinate past each edge. -/
theorem witness_FbSetWritesOnePixel :
    sample.fb.Ok Params.hardware ∧ (63 < 64 ∧ 31 < 32) ∧ ¬ (64 < 64 ∧ 0 < 32) ∧ ¬ (0 < 64 ∧ 32 < 32) :=
  ⟨sample_grid, by decide, by decide, by decide⟩

/-- A cycle that leaves dirty 1: a clear-screen. -/
theorem witness_DriverPassFlushesAndTicks :
    ok (step (withBytes 0x200 [0x00, 0xE0])) (fun t => t.fb.dirty) = true := by decide +kernel

end Sys2Proof.Tests
end

section
/-! SUPPORT. The invariant of the engine, kept by every operation of a cycle under any parameters: one rule per update
of a running state, the recorded faults and when they are raised, then the instructions and the cycle. -/

namespace Sys2Proof.Machine

/-! ### The record of each fault (60_exceptions.md R191) -/

theorem faultOk_setFault_stackUnderflow (p : Params) (s : State) :
    (s.setFault (some .stackUnderflow)).FaultOk p ↔
      s.opcode = 0x00EE#16 ∧ s.stack.top = 0 ∧ s.stack.slotAt 0 = none := Iff.rfl

theorem faultOk_setFault_reservedFetch (p : Params) (s : State) :
    (s.setFault (some .reservedFetch)).FaultOk p ↔ fetchReserved p s.pc = true := Iff.rfl

theorem faultOk_setFault_drawOutOfRange (p : Params) (s : State) :
    (s.setFault (some .drawOutOfRange)).FaultOk p ↔ p.edgePolicy = .fault ∧
      ∃ x y n, decodeWord s.opcode = .draw x y n ∧ SpriteOffEdge p s x y n := Iff.rfl

/-- The one word of a return (30_encoding.md R84). -/
theorem eq_00EE_of_decodeWord_eq_ret {w : Word} (h : decodeWord w = .ret) : w = 0x00EE#16 := by
  have hw := decodeWord_cases w
  simpa [h] using hw

/-- The draw's own edge check is the rule's `OffEdge` (44_display.md R172). -/
theorem offEdge_drawBits_iff (p : Params) (x y : Reg) (n : Nibble) (s : State) :
    offEdge p (drawBits p x y n s) = true ↔ SpriteOffEdge p s x y n := by
  simp only [offEdge, List.any_eq_true, drawBits, mem_spriteBits, offGrid, Bool.or_eq_true, decide_eq_true_eq]
  constructor
  · rintro ⟨_, ⟨r, hr, b, hb, hbit, rfl⟩, hoff⟩
    exact ⟨r, hr, b, hb, hbit, hoff⟩
  · rintro ⟨r, hr, b, hb, hbit, hoff⟩
    exact ⟨_, ⟨r, hr, b, hb, hbit, rfl⟩, hoff⟩

/-! ### The grid after a draw -/

/-- The draw loop keeps the grid's shape, whatever it plots (10_state.md R36). -/
theorem Framebuffer.Ok.plotAll {p : Params} {f : Framebuffer} (h : f.Ok p) (bits : List (Nat × Nat)) :
    (plotAll p f bits).fb.Ok p :=
  plot_fold_ok (c := ⟨f, flagByte false⟩) h _

/-! ### Updates of a state that meets the invariant -/

namespace State.Inv

variable {p : Params} {s t : State}

/-- A state with no fault recorded meets the invariant when memory and DT are as in one that does, and the stack and
the grid keep their shape. -/
theorem of_fault_none (hs : s.Inv p) (hf : t.fault = none) (hm : t.mem = s.mem) (hd : t.dt = s.dt)
    (hk : t.stack.Ok p) (hg : t.fb.Ok p) : t.Inv p where
  stack := hk
  grid := hg
  memory := by rw [hm]; exact hs.memory
  reserved := by rw [hm]; exact hs.reserved
  timer := hd.trans hs.timer
  record := by simp [FaultOk, hf]

/-- Raising a fault keeps the invariant when the fault's record is true (R190). -/
theorem setFault {kind : Option Fault} (hs : s.Inv p) (hr : (s.setFault kind).FaultOk p) : (s.setFault kind).Inv p where
  stack := hs.stack
  grid := hs.grid
  memory := hs.memory
  reserved := hs.reserved
  timer := hs.timer
  record := hr

theorem setPc (hs : s.Inv p) (hf : s.fault = none) (a : Addr) : (s.setPc a).Inv p :=
  hs.of_fault_none hf rfl rfl hs.stack hs.grid

theorem setI (hs : s.Inv p) (hf : s.fault = none) (a : Addr) : (s.setI a).Inv p :=
  hs.of_fault_none hf rfl rfl hs.stack hs.grid

theorem writeReg (hs : s.Inv p) (hf : s.fault = none) (r : Reg) (b : Byte) : (s.writeReg r b).Inv p :=
  hs.of_fault_none hf rfl rfl hs.stack hs.grid

theorem setStack {k : CallStack} (hs : s.Inv p) (hf : s.fault = none) (hk : k.Ok p) : (s.setStack k).Inv p :=
  hs.of_fault_none hf rfl rfl hk hs.grid

theorem setFb {f : Framebuffer} (hs : s.Inv p) (hf : s.fault = none) (hg : f.Ok p) : (s.setFb f).Inv p :=
  hs.of_fault_none hf rfl rfl hs.stack hg

theorem skipIf (hs : s.Inv p) (hf : s.fault = none) (taken : Bool) (size : Nat) : (s.skipIf taken size).Inv p := by
  cases taken with
  | true => exact hs.setPc hf _
  | false => exact hs

theorem fetched (hs : s.Inv p) (hf : s.fault = none) (size : Nat) : (s.fetched size).Inv p :=
  hs.of_fault_none hf rfl rfl hs.stack hs.grid

/-! ### Instructions of a running engine -/

/-- A return keeps the invariant: on a stack that meets R33 it underflows only at top = 0 with slot 0 empty (R34). -/
theorem returnWith (hs : s.Inv p) (hf : s.fault = none) (hop : decodeWord s.opcode = .ret) :
    ∃ t, returnWith p s = .next t ∧ t.Inv p := by
  rcases returnWith_cases p s with ⟨hnone, h⟩ | ⟨a, -, h⟩
  · have hempty : s.stack.top = 0 ∧ s.stack.slotAt 0 = none := hs.stack.pop_none_iff.1 hnone
    exact ⟨_, h, hs.setFault <| (faultOk_setFault_stackUnderflow p s).2 ⟨eq_00EE_of_decodeWord_eq_ret hop, hempty⟩⟩
  · exact ⟨_, h, (hs.setStack hf hs.stack.pop).setPc hf a⟩

/-- A draw keeps the invariant: it faults only on a sprite with a set bit past an edge, and else keeps the grid. -/
theorem drawWith {x y : Reg} {n : Nibble} (hs : s.Inv p) (hf : s.fault = none)
    (hop : decodeWord s.opcode = .draw x y n) : ∃ t, drawWith p x y n s = .next t ∧ t.Inv p := by
  rcases drawWith_cases p x y n s with ⟨hpolicy, hoff, h⟩ | ⟨-, h⟩
  · have hedge : SpriteOffEdge p s x y n := (offEdge_drawBits_iff p x y n s).1 hoff
    exact ⟨_, h, hs.setFault <| (faultOk_setFault_drawOutOfRange p s).2 ⟨hpolicy, x, y, n, hop, hedge⟩⟩
  · have hgrid := (hs.grid.plotAll (drawBits p x y n s)).of_pix (Framebuffer.markDirty_pix _)
    exact ⟨_, h, (hs.writeReg hf _ _).setFb hf hgrid⟩

/-- The instruction in the opcode register, performed on a running engine, answers a state that meets the invariant. -/
theorem execWith {i : Instr} (hs : s.Inv p) (hf : s.fault = none) (hop : decodeWord s.opcode = i) :
    ∃ t, execWith p i s = .next t ∧ t.Inv p := by
  cases i with
  | ret => exact hs.returnWith hf hop
  | draw x y n => exact hs.drawWith hf hop
  | clearScreen => exact ⟨_, rfl, hs.setFb hf (Framebuffer.Ok.clear _)⟩
  | jump nnn => exact ⟨_, rfl, hs.setPc hf nnn⟩
  | call nnn => exact ⟨_, rfl, (hs.setStack hf (hs.stack.push s.pc)).setPc hf nnn⟩
  | skipEqImm x nn => exact ⟨_, rfl, hs.skipIf hf _ _⟩
  | skipNeImm x nn => exact ⟨_, rfl, hs.skipIf hf _ _⟩
  | skipEqReg x y => exact ⟨_, rfl, hs.skipIf hf _ _⟩
  | skipNeReg x y => exact ⟨_, rfl, hs.skipIf hf _ _⟩
  | setImm x nn => exact ⟨_, rfl, hs.writeReg hf x _⟩
  | addImm x nn => exact ⟨_, rfl, hs.writeReg hf x _⟩
  | setIndex nnn => exact ⟨_, rfl, hs.setI hf nnn⟩
  | move x y => exact ⟨_, rfl, hs.writeReg hf x _⟩
  | or x y => exact ⟨_, rfl, hs.writeReg hf x _⟩
  | and x y => exact ⟨_, rfl, hs.writeReg hf x _⟩
  | xor x y => exact ⟨_, rfl, hs.writeReg hf x _⟩
  | addCarry x y => exact ⟨_, rfl, (hs.writeReg hf x _).writeReg hf regF _⟩
  | unrecognised w => exact ⟨_, rfl, hs⟩

/-- A cycle of a running engine answers a state that meets the invariant (40_fetch_dispatch.md R107). -/
theorem cycleWith (hs : s.Inv p) (hf : s.fault = none) : ∃ t, cycleWith p s = .next t ∧ t.Inv p := by
  rcases cycleVia_cases p (Machine.execWith p) s with ⟨k, hk, -⟩ | ⟨-, hres, h⟩ | ⟨-, -, h⟩
  · rw [hf] at hk
    cases hk
  · exact ⟨_, h, hs.setFault ((faultOk_setFault_reservedFetch p s).2 hres)⟩
  · obtain ⟨t, ht, hinv⟩ := (hs.fetched hf p.memSize).execWith hf rfl
    exact ⟨t, h.trans ht, hinv⟩

end State.Inv

/-- A cycle that answers a state started from a running engine (R109). -/
theorem fault_eq_none_of_cycleWith_next {p : Params} {s t : State} (h : cycleWith p s = .next t) : s.fault = none := by
  rcases cycleVia_cases p (execWith p) s with ⟨k, -, hk⟩ | ⟨hf, -⟩ | ⟨hf, -⟩
  · cases h.symm.trans hk
  · exact hf
  · exact hf

/-- Settles O53: the engine was running, and `State.Inv.cycleWith` gives the state that its cycle answers. -/
theorem cycleKeepsTheInvariantForEveryParameters : Obligations.CycleKeepsTheInvariantForEveryParameters := by
  intro p s t hs h
  obtain ⟨u, hu, hinv⟩ := hs.cycleWith (fault_eq_none_of_cycleWith_next h)
  cases h.symm.trans hu
  exact hinv

end Sys2Proof.Machine
end

section
/-! SUPPORT. The invariant on this hardware: it holds at reset, and every step and every operation of the host
interface table (spec 70_reset_and_hazards.md R221) keeps it, so every reachable state meets it. -/

namespace Sys2Proof.Machine

/-- Settles O51: a step is a cycle with this hardware's parameters, and O53 holds for every parameters. -/
theorem stepKeepsTheInvariant : Obligations.StepKeepsTheInvariant := by
  intro s t hs h
  rw [cycleWith_hardware] at h
  exact cycleKeepsTheInvariantForEveryParameters Params.hardware s t hs h

/-! ### Reset -/

/-- A blank framebuffer has the grid's shape (10_state.md R36). -/
theorem Framebuffer.Ok.blank (p : Params) (d : Bool) : (Framebuffer.mk (blankPixels p.fbWidth p.fbHeight) d).Ok p :=
  (Framebuffer.Ok.clear ⟨[], d⟩).of_pix rfl

/-- The state after reset meets the invariant, for any valid parameters (70_reset_and_hazards.md R210). -/
theorem State.Inv.resetWith {p : Params} (hp : p.Valid) : (State.resetWith p).Inv p where
  stack := CallStack.empty_ok hp.capacity_pos
  grid := Framebuffer.Ok.blank p false
  memory := rfl
  reserved := fun a _ => Memory.read_nil a
  timer := rfl
  record := trivial

/-- Settles O50: this hardware's parameters are valid. -/
theorem resetMeetsTheInvariant : Obligations.ResetMeetsTheInvariant :=
  State.Inv.resetWith hardware_valid

/-! ### The record of a fault on this hardware -/

/-- On this hardware, where EDGE_POLICY = Wrap, the record speaks of opcode, the stack and pc alone (R191). -/
theorem faultOk_hardware_iff (s : State) :
    s.FaultOk Params.hardware ↔ s.fault ≠ some .drawOutOfRange ∧
      (s.fault = some .stackUnderflow → s.opcode = 0x00EE#16 ∧ s.stack.top = 0 ∧ s.stack.slotAt 0 = none) ∧
      (s.fault = some .reservedFetch → fetchReserved Params.hardware s.pc = true) := by
  unfold State.FaultOk
  rcases s.fault with _ | _ | _ | _ <;> simp

/-! ### Updates by the host -/

namespace State.Inv

variable {s : State}

/-- The host's write of memory keeps the invariant when the new memory is canonical and the reserved region reads
0x00 (20_memory.md R63). -/
theorem setMem {m : Memory} (hs : s.Inv Params.hardware) (hm : m.wf = true)
    (hr : ∀ a, a < Params.hardware.loadOffset.toNat → m.read a = 0x00#8) : (s.setMem m).Inv Params.hardware where
  stack := hs.stack
  grid := hs.grid
  memory := hm
  reserved := hr
  timer := hs.timer
  record := (faultOk_hardware_iff _).2 ((faultOk_hardware_iff s).1 hs.record)

/-- The host's write of pixels or dirty keeps the invariant, also beside a recorded fault. -/
theorem setFb_of_ok {f : Framebuffer} (hs : s.Inv Params.hardware) (hg : f.Ok Params.hardware) :
    (s.setFb f).Inv Params.hardware where
  stack := hs.stack
  grid := hg
  memory := hs.memory
  reserved := hs.reserved
  timer := hs.timer
  record := (faultOk_hardware_iff _).2 ((faultOk_hardware_iff s).1 hs.record)

/-- A load starts at LOAD_OFFSET and fits below MEM_SIZE, so it leaves the reserved region alone (R214, R215). -/
theorem load {image : List Byte} {t : State} (hs : s.Inv Params.hardware)
    (h : loadWith Params.hardware image s = .next t) : t.Inv Params.hardware := by
  unfold loadWith at h
  split at h
  · cases h
  · next hfit =>
    cases h
    refine hs.setMem (Memory.wf_writeBytes _ _ hs.memory) fun a ha => ?_
    have hoff : Params.hardware.loadOffset.toNat = 0x200 := rfl
    have hlen : image.length ≤ 4096 - 0x200 := Nat.le_of_not_lt hfit
    rw [hoff] at ha ⊢
    rw [hardware_memSize, Memory.read_writeBytes hs.memory _ _ (by simp only [memSize]; omega) _
      (by simp only [memSize]; omega), if_neg (by omega)]
    exact hs.reserved a ha

/-- A flush clears at most dirty (R217). -/
theorem flushed (hs : s.Inv Params.hardware) : s.flushed.Inv Params.hardware := by
  unfold State.flushed
  split
  · exact hs.setFb_of_ok (hs.grid.of_pix rfl)
  · exact hs

/-- A tick finds DT = 0x00 and does nothing (R218). -/
theorem ticked (hs : s.Inv Params.hardware) : s.ticked.Inv Params.hardware := by
  have hid : s.ticked = s := by simp [State.ticked, hs.timer]
  rwa [hid]

/-- A pixel set by the host stays in the grid (R219). -/
theorem fbSet {px py : Nat} {b : Bool} {t : State} (hs : s.Inv Params.hardware)
    (h : fbSetWith Params.hardware px py b s = .next t) : t.Inv Params.hardware := by
  unfold fbSetWith at h
  split at h
  · cases h
    exact hs.setFb_of_ok (hs.grid.setPixel px py b)
  · cases h

/-- A fetch keeps the invariant under any parameters, whether or not it raises ReservedFetch (R100, R101). -/
theorem fetchWith {p : Params} {t : State} (hs : s.Inv p) (h : fetchWith p s = .next t) : t.Inv p := by
  rcases fetchWith_cases p s with ⟨k, -, hk⟩ | ⟨-, hres, hn⟩ | ⟨hf, -, hn⟩
  · cases hk.symm.trans h
  · cases hn.symm.trans h
    exact hs.setFault ((faultOk_setFault_reservedFetch p s).2 hres)
  · cases hn.symm.trans h
    exact hs.fetched hf p.memSize

/-- An execute performs the instruction of the opcode register, as a cycle does after its fetch (R102). -/
theorem execute {t : State} (hs : s.Inv Params.hardware) (h : execute s = .next t) : t.Inv Params.hardware := by
  rcases execute_cases s with ⟨k, -, hk⟩ | ⟨hf, hn⟩
  · cases hk.symm.trans h
  · obtain ⟨u, hu, hinv⟩ := hs.execWith hf rfl
    cases ((hn.trans (exec_eq_execWith _ s)).trans hu).symm.trans h
    exact hinv

end State.Inv

/-! ### Every operation of the host, and every reachable state -/

/-- Settles O52: one lemma per row of the host interface table. -/
theorem hostOperationsKeepTheInvariant : Obligations.HostOperationsKeepTheInvariant := by
  intro o s t hs h
  cases o with
  | reset => cases h; exact resetMeetsTheInvariant
  | load image => exact hs.load h
  | fetch => exact hs.fetchWith h
  | execute => exact hs.execute h
  | flush => cases h; exact hs.flushed
  | tickTimers => cases h; exact hs.ticked
  | fbSet px py b => exact hs.fbSet h

/-- The invariant holds in every state the host can reach, by induction over the host's operations. -/
theorem Reachable.inv {s : State} (h : Reachable s) : s.Inv Params.hardware := by
  induction h with
  | reset => exact resetMeetsTheInvariant
  | op o _ hstep ih => exact hostOperationsKeepTheInvariant o _ _ ih hstep

/-- Settles O54: each clause is a consequence of the invariant. -/
theorem whatEveryReachableStateMeets : Obligations.WhatEveryReachableStateMeets := by
  intro s h
  have hs := h.inv
  obtain ⟨hdraw, hunderflow, -⟩ := (faultOk_hardware_iff s).1 hs.record
  exact ⟨hs.timer, hs.stack.pop_none_iff, hs.reserved, hdraw, fun hf => (hunderflow hf).1⟩

end Sys2Proof.Machine
end

section
/-! SUPPORT. What each instruction writes (spec 10_state.md R22, R26, R28, R30, R40): one inversion of `exec`
into forms, from which the frames of all instructions follow. -/

namespace Sys2Proof.Machine

/-- The next states an instruction can leave, by the pieces of state it writes. A register's or flag's new value, and
whether a skip is taken, are left open: a frame does not depend on them. -/
inductive ExecForm (s : State) : Instr → State → Prop where
  | writesVx {i : Instr} {x : Reg} (b : Byte) : WritesVx i x → ExecForm s i (s.writeReg x b)
  | addCarry (x y : Reg) (sum carry : Byte) : ExecForm s (.addCarry x y) ((s.writeReg x sum).writeReg regF carry)
  | skip {i : Instr} (taken : Bool) : IsControlTransfer i → ExecForm s i (s.skipIf taken)
  | jump (nnn : Addr) : ExecForm s (.jump nnn) (s.setPc nnn)
  | call (nnn : Addr) (k : CallStack) : ExecForm s (.call nnn) ((s.setStack k).setPc nnn)
  | ret (a : Addr) (k : CallStack) : ExecForm s .ret ((s.setStack k).setPc a)
  | underflow : ExecForm s .ret (s.setFault (some .stackUnderflow))
  | setIndex (nnn : Addr) : ExecForm s (.setIndex nnn) (s.setI nnn)
  | clearScreen : ExecForm s .clearScreen (s.setFb (s.fb.clear Params.hardware))
  | draw (x y : Reg) (n : Nibble) (f : Framebuffer) (vf : Byte) :
      ExecForm s (.draw x y n) ((s.writeReg regF vf).setFb f.markDirty)
  | unrecognised (w : Word) : ExecForm s (.unrecognised w) s

/-- Every next state of an instruction has one of the forms. -/
theorem execForm_of_next {i : Instr} {s t : State} (h : exec i s = .next t) : ExecForm s i t := by
  cases i with
  | ret =>
    rcases returnWith_cases Params.hardware s with ⟨-, hn⟩ | ⟨a, -, hn⟩
    · cases hn.symm.trans h
      exact .underflow
    · cases hn.symm.trans h
      exact .ret a _
  | draw x y n =>
    cases (execDraw_eq x y n s).symm.trans h
    exact .draw x y n _ _
  | clearScreen => cases h; exact .clearScreen
  | jump nnn => cases h; exact .jump nnn
  | call nnn => cases h; exact .call nnn _
  | skipEqImm x nn => cases h; exact .skip _ trivial
  | skipNeImm x nn => cases h; exact .skip _ trivial
  | skipEqReg x y => cases h; exact .skip _ trivial
  | skipNeReg x y => cases h; exact .skip _ trivial
  | setImm x nn => cases h; exact .writesVx _ rfl
  | addImm x nn => cases h; exact .writesVx _ rfl
  | setIndex nnn => cases h; exact .setIndex nnn
  | move x y => cases h; exact .writesVx _ rfl
  | or x y => cases h; exact .writesVx _ rfl
  | and x y => cases h; exact .writesVx _ rfl
  | xor x y => cases h; exact .writesVx _ rfl
  | addCarry x y => cases h; exact .addCarry x y _ _
  | unrecognised w => cases h; exact .unrecognised w

/-- A register that reads another value after a write of one register is the one written. -/
theorem State.eq_of_readReg_writeReg_ne {s : State} {x r : Reg} {b : Byte}
    (h : (s.writeReg x b).readReg r ≠ s.readReg r) : r = x :=
  Classical.byContradiction fun hne => h (s.readReg_writeReg_ne b hne)

/-- Settles O19: no form writes opcode, DT or memory. -/
theorem noInstructionWritesOpcodeTimerOrMemory : Obligations.NoInstructionWritesOpcodeTimerOrMemory := by
  intro i s t h
  cases execForm_of_next h <;> simp [KeepsUnwritten, KeepsMemory]

/-- Settles O20: the forms that write a register are `writesVx`, add-carry and draw. -/
theorem registerWritersAreTheTable : Obligations.RegisterWritersAreTheTable := by
  intro i s t r h hne
  cases execForm_of_next h with
  | writesVx b hx =>
    obtain rfl := State.eq_of_readReg_writeReg_ne hne
    exact .inl hx
  | addCarry x y sum carry =>
    by_cases hr : r = regF
    · exact .inr ⟨hr, trivial⟩
    · rw [State.readReg_writeReg_ne _ _ hr] at hne
      exact .inl (State.eq_of_readReg_writeReg_ne hne)
  | draw x y n f vf => exact .inr ⟨State.eq_of_readReg_writeReg_ne hne, trivial⟩
  | skip taken _ => exact absurd (State.readReg_skipIf ..) hne
  | jump | call | ret | underflow | setIndex | clearScreen | unrecognised => exact absurd rfl hne

/-- Settles O21: the forms that write pc are the skips, jump, call and return. -/
theorem onlyControlTransferWritesPc : Obligations.OnlyControlTransferWritesPc := by
  intro i s t h
  cases execForm_of_next h with
  | skip taken hi =>
    refine ⟨fun _ => hi, fun hne _ _ _ => ?_⟩
    cases taken with
    | true => exact nextPc_eq s.pc
    | false => exact absurd rfl hne
  | jump nnn => exact ⟨fun _ => trivial, fun _ _ hjump _ => absurd rfl (hjump nnn)⟩
  | call nnn k => exact ⟨fun _ => trivial, fun _ _ _ hcall => absurd rfl (hcall nnn)⟩
  | ret a k => exact ⟨fun _ => trivial, fun _ hret _ _ => absurd rfl hret⟩
  | writesVx | addCarry | underflow | setIndex | clearScreen | draw | unrecognised =>
    exact ⟨absurd rfl, fun hne => absurd rfl hne⟩

/-- Settles O22: each of the three pieces has its own forms, and both forms that write the framebuffer set dirty. -/
theorem writersOfIndexStackAndDisplay : Obligations.WritersOfIndexStackAndDisplay := by
  intro i s t h
  cases execForm_of_next h with
  | setIndex nnn => exact ⟨fun _ => ⟨nnn, rfl⟩, absurd rfl, absurd rfl, id⟩
  | call nnn k => exact ⟨absurd rfl, fun _ => .inr ⟨nnn, rfl⟩, absurd rfl, id⟩
  | ret a k => exact ⟨absurd rfl, fun _ => .inl rfl, absurd rfl, id⟩
  | clearScreen => exact ⟨absurd rfl, absurd rfl, fun _ => .inl rfl, fun _ => rfl⟩
  | draw x y n f vf => exact ⟨absurd rfl, absurd rfl, fun _ => .inr ⟨x, y, n, rfl⟩, fun _ => rfl⟩
  | skip taken _ => simp
  | writesVx | addCarry | jump | underflow | unrecognised => exact ⟨absurd rfl, absurd rfl, absurd rfl, id⟩

end Sys2Proof.Machine
end

section
/-! SUPPORT. What no instruction reads (spec 10_state.md R28, R29, R40, R42; 20_memory.md R66): a change to a piece of
state that the shared operations neither read nor write passes through an instruction. -/

namespace Sys2Proof.Machine

/-- Whether an instruction works on the general registers, pc, the stack and fault alone: all but clear-screen and draw,
which work on the framebuffer, and set-index. -/
def OnRegsPcAndStack : Instr → Prop
  | .clearScreen => False
  | .setIndex _ => False
  | .draw _ _ _ => False
  | _ => True

/-- A change `f` of the state outside the registers, pc, the stack and fault: it keeps what is read of them, and
commutes with every update of them. -/
structure Unseen (f : State → State) : Prop where
  readReg : ∀ s r, (f s).readReg r = s.readReg r
  pc : ∀ s, (f s).pc = s.pc
  stack : ∀ s, (f s).stack = s.stack
  writeReg : ∀ s r b, (f s).writeReg r b = f (s.writeReg r b)
  setPc : ∀ s a, (f s).setPc a = f (s.setPc a)
  setStack : ∀ s k, (f s).setStack k = f (s.setStack k)
  setFault : ∀ s k, (f s).setFault k = f (s.setFault k)

namespace Unseen

theorem setDt (d : Byte) : Unseen fun s => { s with dt := d } := by
  constructor <;> intros <;> rfl

theorem setOpcode (w : Word) : Unseen fun s => { s with opcode := w } := by
  constructor <;> intros <;> rfl

theorem setI (a : Addr) : Unseen fun s => { s with i := a } := by
  constructor <;> intros <;> rfl

theorem setMem (m : Memory) : Unseen fun s => { s with mem := m } := by
  constructor <;> intros <;> rfl

theorem setDirty (b : Bool) : Unseen fun s => { s with fb := { s.fb with dirty := b } } := by
  constructor <;> intros <;> rfl

variable {f : State → State} {s t : State}

/-- A skip tests registers and moves pc. -/
theorem skipIf (hf : Unseen f) (s : State) (taken : Bool) (size : Nat) :
    (f s).skipIf taken size = f (s.skipIf taken size) := by
  cases taken with
  | true => simp [State.skipIf, hf.pc, hf.setPc]
  | false => rfl

/-- A return takes its address from the stack. -/
theorem returnWith (hf : Unseen f) (p : Params) (h : returnWith p s = .next t) :
    returnWith p (f s) = .next (f t) := by
  unfold Machine.returnWith at h ⊢
  rw [hf.stack]
  split at h
  · cases h
    exact congrArg Host.Outcome.next (hf.setFault s _)
  · cases h
    rw [hf.setStack, hf.setPc]

/-- An instruction on the registers, pc and the stack leaves an unseen change as it was. -/
theorem exec (hf : Unseen f) {i : Instr} (hi : OnRegsPcAndStack i) (h : exec i s = .next t) :
    exec i (f s) = .next (f t) := by
  cases i with
  | clearScreen | setIndex | draw => exact hi.elim
  | ret => exact hf.returnWith _ h
  | jump nnn => cases h; simp [Machine.exec, execJump, hf.setPc]
  | call nnn => cases h; simp [Machine.exec, execCall, callWith, hf.stack, hf.pc, hf.setStack, hf.setPc]
  | skipEqImm x nn => cases h; simp [Machine.exec, execSkipEqImm, skipEqImmWith, hf.readReg, hf.skipIf]
  | skipNeImm x nn => cases h; simp [Machine.exec, execSkipNeImm, skipNeImmWith, hf.readReg, hf.skipIf]
  | skipEqReg x y => cases h; simp [Machine.exec, execSkipEqReg, skipEqRegWith, hf.readReg, hf.skipIf]
  | skipNeReg x y => cases h; simp [Machine.exec, execSkipNeReg, skipNeRegWith, hf.readReg, hf.skipIf]
  | setImm x nn => cases h; simp [Machine.exec, execSetImm, hf.writeReg]
  | addImm x nn => cases h; simp [Machine.exec, execAddImm, hf.readReg, hf.writeReg]
  | move x y => cases h; simp [Machine.exec, execMove, hf.readReg, hf.writeReg]
  | or x y => cases h; simp [Machine.exec, execOr, hf.readReg, hf.writeReg]
  | and x y => cases h; simp [Machine.exec, execAnd, hf.readReg, hf.writeReg]
  | xor x y => cases h; simp [Machine.exec, execXor, hf.readReg, hf.writeReg]
  | addCarry x y => cases h; simp [Machine.exec, execAddCarry, hf.readReg, hf.writeReg]
  | unrecognised w => cases h; rfl

end Unseen

/-! ### The draw loop and dirty -/

/-- The draw loop takes dirty along and does not look at it (44_display.md R171, 10_state.md R38). -/
theorem plot_fold_setDirty (c : Canvas) (b : Bool) (ts : List (Nat × Nat)) :
    ts.foldl plot ⟨{ c.fb with dirty := b }, c.vf⟩ =
      ⟨{ (ts.foldl plot c).fb with dirty := b }, (ts.foldl plot c).vf⟩ := by
  induction ts generalizing c with
  | nil => rfl
  | cons t ts ih => exact ih (plot c t)

theorem plotAll_setDirty (p : Params) (f : Framebuffer) (b : Bool) (bits : List (Nat × Nat)) :
    plotAll p { f with dirty := b } bits = ⟨{ (plotAll p f bits).fb with dirty := b }, (plotAll p f bits).vf⟩ :=
  plot_fold_setDirty ⟨f, flagByte false⟩ b _

/-- A draw plots the same pixels and the same flag whatever dirty was, and then sets dirty (R175). -/
theorem exec_draw_setDirty {x y : Reg} {n : Nibble} {s t : State} (h : exec (.draw x y n) s = .next t) (b : Bool) :
    exec (.draw x y n) { s with fb := { s.fb with dirty := b } } = .next t := by
  rw [← h]
  refine (execDraw_eq x y n _).trans (Eq.trans ?_ (execDraw_eq x y n s).symm)
  rw [plotAll_setDirty]
  rfl

/-! ### The statements -/

/-- Settles O24: DT and opcode are unseen by every instruction, and dirty by all but clear-screen and draw, which
set it. -/
theorem noInstructionReadsTimerOpcodeOrDirty : Obligations.NoInstructionReadsTimerOpcodeOrDirty := by
  intro i s t h
  cases i with
  | draw x y n =>
    have hdirty := exec_draw_setDirty h
    cases (execDraw_eq x y n s).symm.trans h
    exact ⟨fun d => execDraw_eq x y n _, fun w => execDraw_eq x y n _, fun b => ⟨true, hdirty b⟩⟩
  | clearScreen => cases h; exact ⟨fun _ => rfl, fun _ => rfl, fun _ => ⟨true, rfl⟩⟩
  | setIndex nnn => cases h; exact ⟨fun _ => rfl, fun _ => rfl, fun b => ⟨b, rfl⟩⟩
  | _ =>
    exact ⟨fun d => (Unseen.setDt d).exec trivial h, fun w => (Unseen.setOpcode w).exec trivial h,
      fun b => ⟨b, (Unseen.setDirty b).exec trivial h⟩⟩

/-- Settles O25: I and memory are unseen by every instruction but draw, and set-index, which writes I. -/
theorem onlyDrawReadsIndexAndMemory : Obligations.OnlyDrawReadsIndexAndMemory := by
  intro i s t hdraw h
  cases i with
  | draw x y n => exact absurd rfl (hdraw x y n)
  | clearScreen => cases h; exact ⟨fun a => ⟨a, rfl⟩, fun _ => rfl⟩
  | setIndex nnn => cases h; exact ⟨fun _ => ⟨nnn, rfl⟩, fun _ => rfl⟩
  | _ => exact ⟨fun a => ⟨a, (Unseen.setI a).exec trivial h⟩, fun m => (Unseen.setMem m).exec trivial h⟩

end Sys2Proof.Machine
end

section
/-! SUPPORT. Sequences of pushes and pops under any parameters (spec 10_state.md R31, R32, R35), and the return
instruction on this hardware (41_control.md R120). -/

namespace Sys2Proof.Machine

namespace CallStack

/-! ### Pushes -/

@[simp] theorem slotAt_empty (capacity j : Nat) : (CallStack.empty capacity).slotAt j = none := by
  by_cases hj : j < capacity <;> simp [CallStack.slotAt, CallStack.empty, hj]

theorem pushAll_append (p : Params) (k : CallStack) (as bs : List Addr) :
    k.pushAll p (as ++ bs) = (k.pushAll p as).pushAll p bs :=
  List.foldl_append

@[simp] theorem pushAll_length (p : Params) (k : CallStack) (as : List Addr) :
    (k.pushAll p as).slot.length = k.slot.length := by
  induction as generalizing k with
  | nil => rfl
  | cons a as ih => rw [pushAll_cons, ih, push_length]

/-- Every push moves the cursor on by one, modulo K (R31). -/
theorem pushAll_top {p : Params} {k : CallStack} (hk : k.top < p.stackCapacity) (as : List Addr) :
    (k.pushAll p as).top = (k.top + as.length) % p.stackCapacity := by
  induction as generalizing k with
  | nil => exact (Nat.mod_eq_of_lt hk).symm
  | cons a as ih =>
    rw [pushAll_cons, ih (Nat.mod_lt _ (Nat.zero_lt_of_lt hk)), push_top, Nat.mod_add_mod, List.length_cons,
      Nat.add_assoc, Nat.add_comm 1]

/-- Pushes that fit between the cursor and the last slot, that slot included, stand in order from the cursor on
(R31). -/
theorem slotAt_pushAll {p : Params} {k : CallStack} (hlen : k.slot.length = p.stackCapacity) {as : List Addr}
    (hfit : k.top + as.length ≤ p.stackCapacity) {i : Nat} (hi : i < as.length) :
    (k.pushAll p as).slotAt (k.top + i) = as[i]? := by
  induction as using List.reverseRecOn with
  | nil => exact absurd hi (Nat.not_lt_zero i)
  | append_singleton as a ih =>
    rw [List.length_append, List.length_singleton] at hfit hi
    have htop : (k.pushAll p as).top = k.top + as.length := by
      rw [pushAll_top (by omega), Nat.mod_eq_of_lt (by omega)]
    have hpush := slotAt_push p (k.pushAll p as) a (by rw [htop, pushAll_length]; omega) (k.top + i)
    rw [htop] at hpush
    rw [pushAll_append]
    refine hpush.trans ?_
    rcases Nat.lt_or_ge i as.length with hlt | hge
    · rw [if_neg (by omega), ih (by omega) hlt, List.getElem?_append_left hlt]
    · obtain rfl : i = as.length := by omega
      simp

/-! ### Pops -/

/-- A pop above top 0, with the slot it reads named by its number (R32). -/
theorem pop_of_top_succ {p : Params} {k : CallStack} {j : Nat} (h : k.top = j + 1) :
    k.pop p = (k.slotAt j, ⟨k.slot.set j none, j⟩) := by
  rw [pop_of_top_pos (by omega), h, Nat.add_sub_cancel]

theorem popMany_succ (p : Params) (n : Nat) (k : CallStack) :
    popMany p (n + 1) k = ((k.pop p).1 :: (popMany p n (k.pop p).2).1, (popMany p n (k.pop p).2).2) := rfl

/-- The last of `n + 1` pops acts on what the first `n` left. -/
theorem popMany_succ_last (p : Params) (n : Nat) (k : CallStack) :
    popMany p (n + 1) k =
      ((popMany p n k).1 ++ [((popMany p n k).2.pop p).1], ((popMany p n k).2.pop p).2) := by
  induction n generalizing k with
  | zero => rfl
  | succ n ih => rw [popMany_succ, ih, popMany_succ p n k, List.cons_append]

/-- Pops of a stack that a pop does not change all return the same. -/
theorem popMany_of_pop_eq_self {p : Params} {k : CallStack} {r : Option Addr} (h : k.pop p = (r, k)) (n : Nat) :
    popMany p n k = (List.replicate n r, k) := by
  induction n with
  | zero => rfl
  | succ n ih => rw [popMany_succ, h, ih, List.replicate_succ]

end CallStack

/-! ### K pushes, K + 1 pushes, and fewer -/

/-- K pushes on an empty stack bring the cursor back to 0 and fill the slots in order (R35 (b)). -/
theorem CallStack.pushAll_empty_full {p : Params} {as : List Addr} (hpos : 1 ≤ p.stackCapacity)
    (hlen : as.length = p.stackCapacity) :
    ((CallStack.empty p.stackCapacity).pushAll p as).top = 0 ∧
      ∀ j, j < as.length → ((CallStack.empty p.stackCapacity).pushAll p as).slotAt j = as[j]? := by
  have htop : (CallStack.empty p.stackCapacity).top = 0 := rfl
  constructor
  · rw [CallStack.pushAll_top (CallStack.empty_ok hpos).cursor, htop, Nat.zero_add, hlen, Nat.mod_self]
  · intro j hj
    have hslot := CallStack.slotAt_pushAll (CallStack.empty_ok hpos).capacity (by omega) hj
    rwa [htop, Nat.zero_add] at hslot

/-- Settles O34: the K-th push brings top back to 0, so the next overwrites slot 0 and leaves top = 1. -/
theorem pushingOnePastCapacityOverwritesTheOldest : Obligations.PushingOnePastCapacityOverwritesTheOldest := by
  intro p first last middle hcap hlen full
  have hfull : full = CallStack.push p (CallStack.pushAll p _ (first :: middle)) last :=
    CallStack.pushAll_append p _ (first :: middle) [last]
  obtain ⟨hktop, hkslot⟩ := CallStack.pushAll_empty_full (as := first :: middle) (by omega) hlen
  have hklen := ((CallStack.empty_ok (by omega)).pushAll (p := p) (first :: middle)).capacity
  generalize CallStack.pushAll p _ (first :: middle) = k at hfull hktop hkslot hklen
  have htop : full.top = 1 := by
    rw [hfull, CallStack.push_top, hktop, Nat.mod_eq_of_lt (by omega)]
  have hslot (j : Nat) : full.slotAt j = if j = 0 then some last else k.slotAt j := by
    rw [hfull, CallStack.slotAt_push p k last (by omega), hktop]
  have hmiddle (j : Nat) (hj : j < middle.length) : full.slotAt (j + 1) = middle[j]? := by
    rw [hslot, if_neg (by omega), hkslot _ (Nat.succ_lt_succ hj), List.getElem?_cons_succ]
  have hpop : full.pop p = (some last, ⟨full.slot.set 0 none, 0⟩) := by
    rw [CallStack.pop_of_top_succ htop, hslot, if_pos rfl]
  have hcleared (j : Nat) : (full.pop p).2.slotAt j = if j = 0 then none else full.slotAt j := by
    rw [hpop]
    exact CallStack.slotAt_clear _ _ _ _ full.top
  refine ⟨htop, hslot 0, hmiddle, by rw [hpop], by rw [hpop], hcleared 0, fun j hj => ?_⟩
  rw [hcleared, if_neg (by omega), hmiddle j hj]

/-- Settles O35: a pop at top = 0 changes nothing, or empties slot 0 once for all. -/
theorem poppingAFullStackReturnsTheOldest : Obligations.PoppingAFullStackReturnsTheOldest := by
  intro p first later n hlen full
  obtain ⟨htop, hslot⟩ := CallStack.pushAll_empty_full (as := first :: later) (by omega) hlen
  have hfirst : full.slotAt 0 = some first := hslot 0 (Nat.succ_pos _)
  refine ⟨htop, fun hclears => ?_, fun hclears => ?_⟩
  · refine CallStack.popMany_of_pop_eq_self ?_ n
    rw [CallStack.pop_of_top_zero htop, hfirst, hclears]
    rfl
  · have hpop : full.pop p = (some first, ⟨full.slot.set 0 none, 0⟩) := by
      rw [CallStack.pop_of_top_zero htop, hfirst, hclears]
      rfl
    have hagain : (CallStack.mk (full.slot.set 0 none) 0).pop p = (none, ⟨full.slot.set 0 none, 0⟩) := by
      rw [CallStack.pop_of_top_zero rfl, CallStack.slotAt_clear _ _ _ _ 0, hclears]
      simp
    rw [CallStack.popMany_succ, hpop, CallStack.popMany_of_pop_eq_self hagain]

/-- Settles O36, by induction on the addresses: the first one pushed is the last one popped. -/
theorem stackIsLastInFirstOutBelowCapacity : Obligations.StackIsLastInFirstOutBelowCapacity := by
  intro p k as
  induction as generalizing k with
  | nil => exact fun _ _ => ⟨rfl, rfl, fun _ _ => rfl⟩
  | cons a as ih =>
    intro hlen hfit
    rw [List.length_cons] at hfit
    have hpush : (k.push p a).top = k.top + 1 := Nat.mod_eq_of_lt (by omega)
    have hslot := CallStack.slotAt_push p k a (by omega)
    obtain ⟨hvals, htop, hslots⟩ := ih (k.push p a) (by simpa using hlen) (by omega)
    intro r
    have hr : r = _ := CallStack.popMany_succ_last p as.length _
    rw [CallStack.pushAll_cons] at hr
    rw [hpush] at htop hslots
    generalize CallStack.popMany p as.length _ = q at hr hvals htop hslots
    have hlast : q.2.slotAt k.top = some a := by rw [hslots _ (Nat.lt_succ_self _), hslot, if_pos rfl]
    rw [CallStack.pop_of_top_succ htop, hlast, hvals] at hr
    rw [hr]
    refine ⟨by simp, rfl, fun j hj => ?_⟩
    rw [CallStack.slotAt_clear _ _ _ _ q.2.top, if_neg (by omega)]
    exact (hslots j (by omega)).trans ((hslot j).trans (if_neg (by omega)))

/-! ### Return on this hardware -/

/-- A return whose Pop gives an address goes there (R120). -/
theorem exec_ret_of_pop {s : State} {a : Addr} {k : CallStack} (h : s.stack.pop Params.hardware = (some a, k)) :
    exec .ret s = .next ((s.setStack k).setPc a) := by
  show returnWith Params.hardware s = _
  rw [returnWith, h]

/-- A return whose Pop gives none records StackUnderflow, and that is all (R120, 60_exceptions.md R190). -/
theorem exec_ret_of_pop_none {s : State} (h : (s.stack.pop Params.hardware).1 = none) :
    exec .ret s = .next (s.setFault (some .stackUnderflow)) := by
  rcases returnWith_cases Params.hardware s with ⟨-, hn⟩ | ⟨a, ha, -⟩
  · exact hn
  · cases h.symm.trans ha

/-- With POP0_CLEARS = false a pop at top 0 leaves the stack as it was (R32). -/
theorem CallStack.pop_hardware_of_top_zero {k : CallStack} {a : Addr} (htop : k.top = 0) (h : k.slotAt 0 = some a) :
    k.pop Params.hardware = (some a, k) := by
  rw [CallStack.pop_of_top_zero htop, h]
  rfl

theorem onlyPcAndStack_setStack_setPc (s : State) (k : CallStack) (a : Addr) :
    OnlyPcAndStack s ((s.setStack k).setPc a) :=
  ⟨fun _ _ => rfl, rfl, rfl, rfl, rfl, rfl, fun _ => rfl⟩

/-- Settles O26: the pop above top 0. -/
theorem returnPopsTheSlotBelowTop : Obligations.ReturnPopsTheSlotBelowTop := by
  intro s a _ htop hslot
  have hpop := CallStack.pop_of_top_pos (p := Params.hardware) htop
  rw [hslot] at hpop
  exact ⟨_, exec_ret_of_pop hpop, rfl, rfl, List.length_set, fun j => CallStack.slotAt_clear _ _ _ j _,
    onlyPcAndStack_setStack_setPc s _ a⟩

/-- Settles O27: the pop at top 0. -/
theorem returnAtTopZeroKeepsTheStack : Obligations.ReturnAtTopZeroKeepsTheStack := by
  intro s a htop hslot
  exact ⟨_, exec_ret_of_pop (CallStack.pop_hardware_of_top_zero htop hslot), rfl, rfl,
    onlyPcAndStack_setStack_setPc s _ a⟩

/-- Settles O28: on a stack that meets R33 Pop gives none exactly when top = 0 and slot 0 is empty. -/
theorem returnUnderflowsExactlyWhenEmpty : Obligations.ReturnUnderflowsExactlyWhenEmpty := by
  intro s hok hrun
  have hraise : s.stack.top = 0 ∧ s.stack.slotAt 0 = none → exec .ret s = .next (s.setFault (some .stackUnderflow)) :=
    fun hempty => exec_ret_of_pop_none (hok.pop_none_iff.2 hempty)
  refine ⟨⟨fun ⟨t, ht, hfault⟩ => hok.pop_none_iff.1 ?_, fun hempty => ⟨_, hraise hempty, rfl⟩⟩,
    fun htop hslot => hraise ⟨htop, hslot⟩⟩
  rcases returnWith_cases Params.hardware s with ⟨hnone, -⟩ | ⟨a, -, hn⟩
  · exact hnone
  · cases hn.symm.trans ht
    cases hrun.symm.trans hfault

/-- Settles O33: the call wraps top to 0 and leaves slot 0 alone, so the return takes slot 0. -/
theorem callAtTheLastSlotReturnsToTheOldest : Obligations.CallAtTheLastSlotReturnsToTheOldest := by
  intro nnn oldest s t u hok htop hslot hcall hstack
  cases hcall
  have hstack : u.stack = s.stack.push Params.hardware s.pc := hstack
  have hwrap : u.stack.top = 0 := by rw [hstack, CallStack.push_top, htop]; rfl
  have holdest : u.stack.slotAt 0 = some oldest := by
    rw [hstack, CallStack.slotAt_push _ _ _ (by rw [hok.capacity]; exact hok.cursor), if_neg (by omega), hslot]
  exact ⟨_, exec_ret_of_pop (CallStack.pop_hardware_of_top_zero hwrap holdest), rfl, hstack⟩

end Sys2Proof.Machine
end

section
/-! SUPPORT. set-index, clear-screen, and the state after reset (spec 42_immediate_index.md R142, 44_display.md R170,
10_state.md R45). -/

namespace Sys2Proof.Machine

/-- The word 0xAnnn is a set-index (30_encoding.md R84). -/
theorem decodeWord_setIndex (nnn : Addr) : decodeWord (wordOfAddr 0xA#4 nnn) = .setIndex nnn := by
  have hclear : wordOfAddr 0xA#4 nnn ≠ 0x00E0#16 := ne_of_fieldN0_ne (by rw [fieldN0_wordOfAddr]; decide)
  have hret : wordOfAddr 0xA#4 nnn ≠ 0x00EE#16 := ne_of_fieldN0_ne (by rw [fieldN0_wordOfAddr]; decide)
  simp [decodeWord, hclear, hret]

/-- Settles O39: set-index is one update of I, which touches no other piece of state. -/
theorem setIndexLoadsI : Obligations.SetIndexLoadsI := fun nnn _ =>
  ⟨decodeWord_setIndex nnn, _, rfl, rfl, fun _ _ => rfl, rfl, rfl, rfl, rfl, rfl, rfl, fun _ => rfl⟩

/-- Settles O42: the cleared framebuffer is the blank grid with dirty set. -/
theorem clearScreenClearsEveryPixel : Obligations.ClearScreenClearsEveryPixel :=
  ⟨rfl, fun s => ⟨_, rfl, Framebuffer.Ok.clear s.fb, fun px py _ _ => Framebuffer.get_clear _ s.fb px py,
    Framebuffer.clear_dirty _ s.fb, fun _ _ => rfl, rfl, rfl, rfl, rfl, rfl, rfl, fun _ => rfl⟩⟩

/-- Settles O49: every piece is read off `State.resetWith`, the pixels off the blank grid. -/
theorem resetState : Obligations.ResetState :=
  ⟨State.resetWith_readReg _, rfl, rfl, rfl, rfl, List.length_replicate, fun j _ => CallStack.slotAt_empty _ j, rfl,
    Framebuffer.Ok.blank _ false, fun px py _ _ => get_blankPixels _ _ _ px py, rfl, fun a _ => Memory.read_nil a, rfl⟩

end Sys2Proof.Machine
end

section
/-! SUPPORT. The reserved region and the word at pc (spec 20_memory.md R64, R65): on this hardware, when a fetch raises
ReservedFetch, what a step does when it does not, and the host's store of the next instruction's word. -/

namespace Sys2Proof.Machine

/-! ### The reserved region on this hardware -/

/-- With LOAD_OFFSET = 0x200 the second byte of a fetch adds only pc = 0xFFF, whose successor is 0x000 (R64, R101). -/
theorem fetchReserved_hardware_iff (pc : Addr) :
    fetchReserved Params.hardware pc = true ↔ pc.toNat < 0x200 ∨ pc.toNat = 0xFFF := by
  have hreserved : fetchReserved Params.hardware pc = true ↔ pc.toNat < 0x200 ∨ (pc.toNat + 1) % 4096 < 0x200 :=
    (fetchReserved_iff _ _).trans (and_iff_right rfl)
  have hpc : pc.toNat < 4096 := pc.isLt
  rw [hreserved]
  omega

/-- At a fetchable pc a step performs the word's instruction on the fetched state (R107). -/
theorem step_of_fetchable {s : State} (h : s.Fetchable) :
    step s = exec (decodeWord (s.mem.readWord s.pc)) s.fetched := by
  obtain ⟨hrun, hlow, hhigh⟩ := h
  rcases step_cases s with ⟨k, hk, -⟩ | ⟨-, hres, -⟩ | ⟨-, -, hstep⟩
  · cases hrun.symm.trans hk
  · have hregion := (fetchReserved_hardware_iff s.pc).1 hres
    omega
  · exact hstep

/-- Settles O8: the two outcomes of a running engine's fetch, split by the reserved region. -/
theorem fetchFaultsExactlyInReservedRegion : Obligations.FetchFaultsExactlyInReservedRegion := by
  intro s hrun
  rw [← fetchReserved_hardware_iff]
  rcases fetchWith_cases Params.hardware s with ⟨k, hk, -⟩ | ⟨-, hres, hfetch⟩ | ⟨-, hres, hfetch⟩
  · cases hrun.symm.trans hk
  · exact ⟨iff_of_true ⟨_, hfetch, rfl⟩ hres, fun _ => hfetch⟩
  · have hnot : ¬ ∃ t, fetch s = .next t ∧ t.fault = some .reservedFetch := by
      rintro ⟨t, ht, hfault⟩
      cases hfetch.symm.trans ht
      cases hrun.symm.trans hfault
    have hopen : ¬ fetchReserved Params.hardware s.pc = true := Bool.eq_false_iff.1 hres
    exact ⟨iff_of_false hnot hopen, fun h => absurd h hopen⟩

/-! ### The host's store of the next word -/

/-- A stored word changes the bytes at its two addresses only (R65). -/
theorem Memory.read_writeWord_of_ne {m : Memory} (h : m.wf = true) (a : Addr) (w : Word) {c : Nat}
    (hhi : c % memSize ≠ a.toNat % memSize) (hlo : c % memSize ≠ (a.toNat + 1) % memSize) :
    (m.writeWord a w).read c = m.read c := by
  simp only [Memory.writeWord, bytesOfWord, Memory.writeBytes]
  rw [Memory.read_write (Memory.wf_write _ _ h), if_neg hlo, Memory.read_write h, if_neg hhi]

theorem tableWord_toNat (w : Word) : tableWord 16 w.toNat = w := by
  rw [tableWord, Nat.mod_eq_of_lt w.isLt, BitVec.ofNat_toNat, BitVec.setWidth_eq]

theorem State.withFetchWord_toNat (s : State) (w : Word) :
    s.withFetchWord 16 w.toNat = s.setMem (s.mem.writeWord s.pc w) := by
  rw [State.withFetchWord, tableWord_toNat]

/-- Settles O15: the store leaves pc and fault alone, so the step fetches the word that the store put at pc. -/
theorem storedWordIsTheNextInstruction : Obligations.StoredWordIsTheNextInstruction := by
  intro s w hs hwf u
  have hu : u = s.setMem (s.mem.writeWord s.pc w) := s.withFetchWord_toNat w
  have hword : u.mem.readWord u.pc = w := by
    rw [hu]
    exact Memory.readWord_writeWord hwf s.pc w
  have hpc : u.pc = s.pc := by rw [hu]; rfl
  have hfetchable : u.Fetchable := by rw [hu]; exact hs
  refine ⟨?_, by rw [hu]; rfl, fun a ha hhi hlo => ?_⟩
  · rw [step_of_fetchable hfetchable, State.fetched_eq, hword, hpc]
  · obtain ⟨-, -, hlast⟩ := hs
    have hpclt : s.pc.toNat < 4096 := s.pc.isLt
    rw [hu]
    exact Memory.read_writeWord_of_ne hwf s.pc w (by simp only [memSize]; omega) (by simp only [memSize]; omega)

end Sys2Proof.Machine
end

section
/-! SUPPORT. Encode and decode are inverse, and the decoder of 40_fetch_dispatch.md R104 agrees with the match and mask
table of 30_encoding.md R84. -/

namespace Sys2Proof

/-! ### The table's rows -/

/-- Two rows that one word selects agree on the bits that both masks look at. -/
theorem Row.bits_and_mask_eq_of_selects {r q : Row} {w : Word} (hr : r.selects w = true) (hq : q.selects w = true) :
    r.bits &&& q.mask = q.bits &&& r.mask := by
  rw [← (r.selects_iff w).1 hr, ← (q.selects_iff w).1 hq, BitVec.and_assoc, BitVec.and_assoc,
    BitVec.and_comm r.mask]

/-- No two rows of the table agree on the bits that both their masks look at. -/
theorem opcodeTable_rows_conflict :
    ∀ r ∈ opcodeTable, ∀ q ∈ opcodeTable, r.bits &&& q.mask = q.bits &&& r.mask → r = q := by decide

/-- Settles O4: the common bits of a word's two rows would agree, and those of two rows of the table do not. -/
theorem opcodeRowsAreDisjoint : Obligations.OpcodeRowsAreDisjoint :=
  ⟨rfl, fun _ r hr q hq hrw hqw =>
    opcodeTable_rows_conflict r hr q hq (Row.bits_and_mask_eq_of_selects hrw hqw)⟩

/-- A mnemonic names one row of the table. -/
theorem opcodeTable_mnemonic_injective :
    ∀ r ∈ opcodeTable, ∀ q ∈ opcodeTable, r.mnemonic = q.mnemonic → r = q := by decide

theorem opcodeTable_mnemonic_ne_unrecognised : ∀ r ∈ opcodeTable, r.mnemonic ≠ "(unrecognised)" := by decide

theorem recognised_eq_false_iff (w : Word) :
    recognised w = false ↔ ∀ r ∈ opcodeTable, ¬ r.selects w = true := List.any_eq_false

/-- The family of Laws/PerInstr.lean, for every term. -/
theorem encode_selects_its_row (i : Instr) : Laws.EncodesToItsRow.Statement i := by
  cases i with
  | clearScreen => exact Laws.EncodesToItsRow.clearScreen
  | ret => exact Laws.EncodesToItsRow.ret
  | jump nnn => exact Laws.EncodesToItsRow.jump nnn
  | call nnn => exact Laws.EncodesToItsRow.call nnn
  | skipEqImm x nn => exact Laws.EncodesToItsRow.skipEqImm x nn
  | skipNeImm x nn => exact Laws.EncodesToItsRow.skipNeImm x nn
  | skipEqReg x y => exact Laws.EncodesToItsRow.skipEqReg x y
  | skipNeReg x y => exact Laws.EncodesToItsRow.skipNeReg x y
  | setImm x nn => exact Laws.EncodesToItsRow.setImm x nn
  | addImm x nn => exact Laws.EncodesToItsRow.addImm x nn
  | setIndex nnn => exact Laws.EncodesToItsRow.setIndex nnn
  | move x y => exact Laws.EncodesToItsRow.move x y
  | or x y => exact Laws.EncodesToItsRow.or x y
  | and x y => exact Laws.EncodesToItsRow.and x y
  | xor x y => exact Laws.EncodesToItsRow.xor x y
  | addCarry x y => exact Laws.EncodesToItsRow.addCarry x y
  | draw x y n => exact Laws.EncodesToItsRow.draw x y n
  | unrecognised w => exact Laws.EncodesToItsRow.unrecognised w

theorem Instr.wf_unrecognised_iff (w : Word) : (Instr.unrecognised w).wf = true ↔ recognised w = false := by
  simp [wf]

/-! ### Every word is the encoding of what it decodes to -/

theorem wordOfAddr_of_fieldN0 {w : Word} {a : Nibble} (h : fieldN0 w = a) : wordOfAddr a (fieldNNN w) = w := by
  rw [← h, wordOfAddr_fields]

theorem wordOfImm_of_fieldN0 {w : Word} {a : Nibble} (h : fieldN0 w = a) :
    wordOfImm a (fieldX w) (fieldNN w) = w := by
  rw [← h, wordOfImm_fields]

theorem wordOfNibbles_of_fieldN0_fieldN {w : Word} {a n : Nibble} (h : fieldN0 w = a ∧ fieldN w = n) :
    wordOfNibbles a (fieldX w) (fieldY w) n = w := by
  rw [← h.1, ← h.2, wordOfNibbles_fields]

/-- Settles O2: each condition of R104 fixes the bits of the word that the term's operands do not hold. -/
theorem encodeDecodeRoundTrip : Obligations.EncodeDecodeRoundTrip := by
  intro w
  rcases decodeWord_cases w with
    ⟨hw, hd⟩ | ⟨hw, hd⟩ | ⟨hw, hd⟩ | ⟨hw, hd⟩ | ⟨hw, hd⟩ | ⟨hw, hd⟩ | ⟨hw, hd⟩ | ⟨hw, hd⟩ | ⟨hw, hd⟩ |
    ⟨hw, hd⟩ | ⟨hw, hd⟩ | ⟨hw, hd⟩ | ⟨hw, hd⟩ | ⟨hw, hd⟩ | ⟨hw, hd⟩ | ⟨hw, hd⟩ | ⟨hw, hd⟩ | ⟨hw, hd⟩ <;> rw [hd]
  · exact ⟨rfl, hw.symm⟩
  · exact ⟨rfl, hw.symm⟩
  · exact ⟨rfl, wordOfAddr_of_fieldN0 hw⟩
  · exact ⟨rfl, wordOfAddr_of_fieldN0 hw⟩
  · exact ⟨rfl, wordOfImm_of_fieldN0 hw⟩
  · exact ⟨rfl, wordOfImm_of_fieldN0 hw⟩
  · exact ⟨rfl, wordOfNibbles_of_fieldN0_fieldN hw⟩
  · exact ⟨rfl, wordOfNibbles_of_fieldN0_fieldN hw⟩
  · exact ⟨rfl, wordOfImm_of_fieldN0 hw⟩
  · exact ⟨rfl, wordOfImm_of_fieldN0 hw⟩
  · exact ⟨rfl, wordOfAddr_of_fieldN0 hw⟩
  · exact ⟨rfl, wordOfNibbles_of_fieldN0_fieldN hw⟩
  · exact ⟨rfl, wordOfNibbles_of_fieldN0_fieldN hw⟩
  · exact ⟨rfl, wordOfNibbles_of_fieldN0_fieldN hw⟩
  · exact ⟨rfl, wordOfNibbles_of_fieldN0_fieldN hw⟩
  · exact ⟨rfl, wordOfNibbles_of_fieldN0_fieldN hw⟩
  · exact ⟨rfl, wordOfNibbles_of_fieldN0_fieldN ⟨hw, rfl⟩⟩
  · exact ⟨(Instr.wf_unrecognised_iff w).2 hw, rfl⟩

theorem wf_decodeWord (w : Word) : (decodeWord w).wf = true := (encodeDecodeRoundTrip w).1

theorem encode_decodeWord (w : Word) : encode (decodeWord w) = w := (encodeDecodeRoundTrip w).2

/-- Settles O5: `decode` answers the decoded word of the first two bytes, which is well-formed. -/
theorem everyTwoBytesDecode : Obligations.EveryTwoBytesDecode :=
  fun hi lo _ => ⟨decodeWord (wordOfBytes hi lo), rfl, wf_decodeWord _⟩

/-- Settles O6, by running the decoder. -/
theorem writtenWordsDecode : Obligations.WrittenWordsDecode :=
  ⟨rfl, rfl, rfl, rfl, rfl, rfl, rfl, rfl, rfl, rfl⟩

/-! ### The decoder and the table -/

/-- The row that a word decodes to, by name and by match and mask. -/
theorem decodeWord_row (w : Word) :
    (∃ r ∈ opcodeTable, r.mnemonic = (decodeWord w).mnemonic ∧ r.selects w = true) ∨
    ((decodeWord w).mnemonic = "(unrecognised)" ∧ recognised w = false) := by
  simpa only [encode_decodeWord] using encode_selects_its_row (decodeWord w) (wf_decodeWord w)

/-- Only an unrecognised term has that mnemonic, and it is its own word. -/
theorem Instr.eq_unrecognised_of_mnemonic {i : Instr} (h : i.mnemonic = "(unrecognised)") :
    i = .unrecognised (encode i) := by
  cases i with
  | unrecognised w => rfl
  | _ => simp [mnemonic] at h

/-- A word that no row matches decodes to the term that carries it (R104). -/
theorem decodeWord_of_not_recognised {w : Word} (h : recognised w = false) : decodeWord w = .unrecognised w := by
  rcases decodeWord_row w with ⟨r, hr, -, hsel⟩ | ⟨hname, -⟩
  · exact absurd hsel ((recognised_eq_false_iff w).1 h r hr)
  · simpa only [encode_decodeWord] using Instr.eq_unrecognised_of_mnemonic hname

theorem recognised_eq_false_of_decodeWord {w : Word} (h : decodeWord w = .unrecognised w) : recognised w = false :=
  (Instr.wf_unrecognised_iff w).1 (h ▸ wf_decodeWord w)

/-- Settles O3: the decoded term's own row selects the word, no other row does, and no other row has its mnemonic. -/
theorem decodeAgreesWithOpcodeTable : Obligations.DecodeAgreesWithOpcodeTable := by
  intro w
  refine ⟨fun r hr => ?_, decodeWord_of_not_recognised, recognised_eq_false_of_decodeWord⟩
  rcases decodeWord_row w with ⟨q, hq, hname, hsel⟩ | ⟨hname, hnone⟩
  · rw [← hname]
    constructor
    · intro hrsel
      rw [opcodeRowsAreDisjoint.2 w r hr q hq hrsel hsel]
    · intro heq
      rwa [← opcodeTable_mnemonic_injective q hq r hr heq]
  · rw [hname]
    exact iff_of_false ((recognised_eq_false_iff w).1 hnone r hr) (opcodeTable_mnemonic_ne_unrecognised r hr).symm

/-! ### Every well-formed term is what its word decodes to -/

theorem ne_00E0_of_fieldN0_ne {w : Word} (h : fieldN0 w ≠ 0x0#4) : w ≠ 0x00E0#16 := ne_of_fieldN0_ne h

theorem ne_00EE_of_fieldN0_ne {w : Word} (h : fieldN0 w ≠ 0x0#4) : w ≠ 0x00EE#16 := ne_of_fieldN0_ne h

/-- N0 of a row with operands is not 0, so its word is neither 0x00E0 nor 0x00EE; N0, and N3 where the row fixes it,
then choose the row, and the fields give the operands back. -/
theorem decodeWord_encode {i : Instr} (h : i.wf = true) : decodeWord (encode i) = i := by
  cases i with
  | clearScreen => rfl
  | ret => rfl
  | unrecognised w => exact decodeWord_of_not_recognised ((Instr.wf_unrecognised_iff w).1 h)
  | _ => simp [encode, decodeWord, ne_00E0_of_fieldN0_ne, ne_00EE_of_fieldN0_ne]

theorem decode_bytesOfWord_append (w : Word) (rest : List Byte) :
    decode (bytesOfWord w ++ rest) = .ok (decodeWord w, rest) := by
  show Except.ok (decodeWord (wordOfBytes (w.extractLsb' 8 8) (w.extractLsb' 0 8)), rest) = _
  rw [wordOfBytes_bytesOfWord]

/-- Settles O1: from the word, and from its two bytes, which make the word again. -/
theorem decodeEncodeRoundTrip : Obligations.DecodeEncodeRoundTrip := by
  intro i h
  have hword := decodeWord_encode h
  exact ⟨hword, fun rest => by rw [encodeBytes, decode_bytesOfWord_append, hword]⟩

end Sys2Proof
end

section
/-! SUPPORT. Fetch, execute and the cycle (spec 40_fetch_dispatch.md R100 to R109): what each answers of a running and of
a faulted engine, the word that changes nothing, and the jump, to any address and to its own. -/

namespace Sys2Proof.Machine

/-! ### A faulted engine, and a fetch that raises -/

theorem fetchWith_of_faulted {s : State} {k : Fault} (h : s.fault = some k) (p : Params) : fetchWith p s = .fault k :=
  whenRunning_of_some h _

theorem execute_of_faulted {s : State} {k : Fault} (h : s.fault = some k) : execute s = .fault k :=
  whenRunning_of_some h _

theorem step_of_faulted {s : State} {k : Fault} (h : s.fault = some k) : step s = .fault k := by
  rw [step, cycleVia, fetchWith_of_faulted h]

/-- Settles O11: fetch and execute are guarded by the field fault, and a cycle begins with its fetch. -/
theorem faultedEngineHasNoStep : Obligations.FaultedEngineHasNoStep := fun _ _ h =>
  ⟨fetchWith_of_faulted h _, execute_of_faulted h, step_of_faulted h⟩

/-- A cycle whose fetch raises a fault is that fetch (R107). -/
theorem cycleVia_of_fetch_raises {p : Params} {perform : Instr → State → Result} {s t : State} {k : Fault}
    (hfetch : fetchWith p s = .next t) (hk : t.fault = some k) : cycleVia p perform s = .next t := by
  simp only [cycleVia, hfetch, hk]

/-- Settles O10: the fault that the fetch recorded has some kind. -/
theorem faultingFetchSkipsExecute : Obligations.FaultingFetchSkipsExecute := by
  intro s t hfetch hfault
  obtain ⟨k, hk⟩ := Option.ne_none_iff_exists'.1 hfault
  exact cycleVia_of_fetch_raises hfetch hk

/-! ### A running engine's fetch -/

/-- In the reserved region a running engine's fetch raises ReservedFetch, and that is all (R101). -/
theorem fetchWith_of_reserved {p : Params} {s : State} (hrun : s.Running) (hres : fetchReserved p s.pc = true) :
    fetchWith p s = .next (s.setFault (some .reservedFetch)) := by
  rw [fetchWith, whenRunning_of_none hrun, if_pos hres, raiseFault]

/-- Outside it a running engine's fetch reads the word at pc (R100). -/
theorem fetchWith_of_not_reserved {p : Params} {s : State} (hrun : s.Running) (hres : ¬ fetchReserved p s.pc = true) :
    fetchWith p s = .next (s.fetched p.memSize) := by
  rw [fetchWith, whenRunning_of_none hrun, if_neg hres]

/-- A fetch advances pc by 2 modulo 4096 (10_state.md R25). -/
theorem State.fetched_pc_toNat (s : State) : s.fetched.pc.toNat = (s.pc.toNat + 2) % 4096 := by
  rw [State.fetched_pc, nextPc_eq]
  exact BitVec.toNat_add _ _

/-- Settles O7: the statement's condition is `fetchReserved`, and the fetched state writes only opcode and pc. -/
theorem fetchReadsWordAndAdvancesPc : Obligations.FetchReadsWordAndAdvancesPc := by
  intro p s hsize hrun
  rw [← hsize, ← fetchReserved_iff]
  refine ⟨fetchWith_of_reserved hrun, fun hopen => ⟨_, fetchWith_of_not_reserved hrun hopen, ?_⟩⟩
  have hhere : p.memSize = memSize := hsize
  rw [hhere]
  exact ⟨toNat_wordOfBytes _ _, s.fetched_pc_toNat, fun _ _ => rfl, rfl, rfl, rfl, rfl, rfl, fun _ => rfl⟩

theorem fetch_of_fetchable {s : State} (h : s.Fetchable) : fetch s = .next s.fetched := by
  obtain ⟨hrun, hlow, hhigh⟩ := h
  refine fetchWith_of_not_reserved hrun fun hres => ?_
  have hregion := (fetchReserved_hardware_iff s.pc).1 hres
  omega

/-- Settles O14: pc + 2 does not wrap, so the second fetch reads the two bytes there. -/
theorem twoFetchesDiscardTheFirstWord : Obligations.TwoFetchesDiscardTheFirstWord := by
  intro s hs hsecond
  have hpc : s.fetched.pc.toNat = s.pc.toNat + 2 := by
    rw [State.fetched_pc_toNat, Nat.mod_eq_of_lt (by omega)]
  have hnext : s.fetched.Fetchable := by
    obtain ⟨hrun, hlow, -⟩ := hs
    exact ⟨hrun, by omega, by omega⟩
  refine ⟨_, _, fetch_of_fetchable hs, fetch_of_fetchable hnext, ?_, ?_,
    fun _ _ => rfl, rfl, rfl, rfl, rfl, rfl, fun _ => rfl⟩
  · rw [State.fetched_pc_toNat, hpc]
  · rw [State.fetched_opcode, Memory.readWord, hpc]
    rfl

/-! ### Execute, and a step at a fetchable pc -/

theorem execute_of_running {s : State} (h : s.Running) : execute s = exec (decodeWord s.opcode) s :=
  whenRunning_of_none h _

/-- Settles O13: no instruction writes opcode, and the word 0x0000 of reset is unrecognised. -/
theorem executeWithoutFetchReexecutes : Obligations.ExecuteWithoutFetchReexecutes := by
  refine ⟨fun s => execute_of_running, fun s t hrun hnext hrunt => ?_, rfl⟩
  rw [execute_of_running hrun] at hnext
  obtain ⟨hopcode, -⟩ := noInstructionWritesOpcodeTimerOrMemory _ _ _ hnext
  exact ⟨hopcode, by rw [execute_of_running hrunt, hopcode]⟩

/-- Settles O9: the term of the two bytes is the decoded word at pc. -/
theorem stepRunsDecodedInstruction : Obligations.StepRunsDecodedInstruction := by
  intro s i rest hs hdecode
  cases hdecode
  rw [step_of_fetchable hs, State.fetched_eq]
  rfl

/-- Settles O16: a word that no row matches decodes to the term that does nothing. -/
theorem unrecognisedWordIsANoOp : Obligations.UnrecognisedWordIsANoOp := by
  refine ⟨fun _ _ => rfl, fun s hs hword => ?_⟩
  have hdecode : decodeWord (s.mem.readWord s.pc) = .unrecognised (s.mem.readWord s.pc) :=
    decodeWord_of_not_recognised hword
  rw [step_of_fetchable hs, hdecode, State.fetched_eq]
  rfl

/-! ### The jump -/

/-- The word 0x1nnn is a jump (30_encoding.md R84). -/
theorem decodeWord_jump (nnn : Addr) : decodeWord (wordOfAddr 0x1#4 nnn) = .jump nnn :=
  decodeWord_encode (i := .jump nnn) rfl

/-- Settles O29: the jump moves pc only, and O8 says which targets the next fetch refuses. -/
theorem jumpSetsPc : Obligations.JumpSetsPc := by
  intro nnn s
  refine ⟨decodeWord_jump nnn, s.setPc nnn, rfl, rfl,
    ⟨fun _ _ => rfl, rfl, rfl, rfl, rfl, rfl, rfl, fun _ => rfl⟩, fun hrun htarget => ?_⟩
  exact (fetchFaultsExactlyInReservedRegion (s.setPc nnn) hrun).2 (htarget.imp_right (congrArg BitVec.toNat))

/-- A step at a jump's word fetches it and moves pc to the target (R107, R121). -/
theorem step_of_jump {s : State} {nnn : Addr} (hs : s.Fetchable)
    (hword : s.mem.readWord s.pc = wordOfAddr 0x1#4 nnn) : step s = .next (s.fetched.setPc nnn) := by
  rw [step_of_fetchable hs, hword, decodeWord_jump]
  rfl

/-- A running state that steps to itself has safe runs of every length. -/
theorem safeRun_of_step_self {s : State} (hrun : s.Running) (hstep : step s = .next s) (k : Nat) : SafeRun k s := by
  induction k with
  | zero => exact hrun
  | succ k ih => exact ⟨hrun, s, hstep, ih⟩

/-- Settles O17: the state after the first cycle reads the same word at the same pc, so its cycle writes the values
that opcode and pc hold already. -/
theorem jumpToSelfLoopsForever : Obligations.JumpToSelfLoopsForever := by
  intro s hs hword
  have hself : s.mem.readWord s.pc = wordOfAddr 0x1#4 s.pc := hword
  have hfirst : step s = .next (s.fetched.setPc s.pc) := step_of_jump hs hself
  have hfetchable : (s.fetched.setPc s.pc).Fetchable := hs
  have hfixed : step (s.fetched.setPc s.pc) = .next (s.fetched.setPc s.pc) := step_of_jump hfetchable hself
  refine ⟨_, hfirst, rfl, hfixed, fun k => ?_⟩
  cases k with
  | zero => exact hs.1
  | succ k => exact ⟨hs.1, _, hfirst, safeRun_of_step_self hfetchable.1 hfixed k⟩

end Sys2Proof.Machine
end

section
/-! SUPPORT. The call, the return after it, and the skips (spec 41_control.md R122 to R128); and that every instruction
answers a next state. -/

namespace Sys2Proof.Machine

/-! ### Call, and the return after it -/

/-- A call pushes pc and jumps (R122). -/
theorem exec_call (nnn : Addr) (s : State) :
    exec (.call nnn) s = .next ((s.setStack (s.stack.push Params.hardware s.pc)).setPc nnn) := rfl

/-- Settles O30: the push says the slots and the cursor, and O8 says which targets the next fetch refuses. -/
theorem callPushesTheReturnAddress : Obligations.CallPushesTheReturnAddress := by
  intro nnn s hlen htop
  have hslots := CallStack.slotAt_push Params.hardware s.stack s.pc (by omega)
  have hlength := (CallStack.push_length Params.hardware s.stack s.pc).trans hlen
  refine ⟨decodeWord_encode (i := .call nnn) rfl, _, exec_call nnn s, rfl, rfl, hlength, hslots,
    onlyPcAndStack_setStack_setPc s _ nnn, fun hrun htarget => ?_⟩
  exact (fetchFaultsExactlyInReservedRegion ((s.setStack (s.stack.push _ s.pc)).setPc nnn) hrun).2
    (htarget.imp_right (congrArg BitVec.toNat))

/-- A pop undoes a push that does not wrap, but for the slot at the cursor, which it empties (R31, R32). -/
theorem CallStack.pop_push {p : Params} {k : CallStack} (hlen : k.slot.length = p.stackCapacity)
    (hroom : k.top + 1 < p.stackCapacity) (a : Addr) :
    (k.push p a).pop p = (some a, ⟨k.slot.set k.top none, k.top⟩) := by
  have htop : (k.push p a).top = k.top + 1 := Nat.mod_eq_of_lt hroom
  have hslots : (k.push p a).slot.set k.top none = k.slot.set k.top none := List.set_set _
  rw [CallStack.pop_of_top_succ htop, CallStack.slotAt_push p k a (by omega), if_pos rfl, hslots]

/-- Settles O32: below the last slot the return's pop undoes the call's push. -/
theorem callThenReturnRestoresPc : Obligations.CallThenReturnRestoresPc := by
  intro nnn s t u hok hroom hcall hstack
  cases (exec_call nnn s).symm.trans hcall
  have hpop := CallStack.pop_push hok.capacity hroom s.pc
  rw [State.setPc_stack, State.setStack_stack] at hstack
  rw [← hstack] at hpop
  exact ⟨_, exec_ret_of_pop hpop, rfl, rfl,
    fun j hj => (CallStack.slotAt_clear _ _ _ j _).trans (if_neg hj)⟩

/-! ### Skips -/

theorem onlyPc_skipIf (s : State) (taken : Bool) : OnlyPc s (s.skipIf taken) := by
  simp [OnlyPc, KeepsRegsBut, KeepsStack, KeepsDisplay, KeepsUnwritten, KeepsMemory]

theorem State.skipIf_pc_toNat (s : State) (taken : Bool) :
    (s.skipIf taken).pc.toNat = if taken then (s.pc.toNat + 2) % 4096 else s.pc.toNat := by
  cases taken with
  | true => exact s.fetched_pc_toNat
  | false => rfl

/-- What a skip does, with its test written as the condition `c` of its rule (R123 to R127). -/
theorem skip_of_test {i : Instr} {s : State} {taken : Bool} {c : Prop} [Decidable c]
    (h : exec i s = .next (s.skipIf taken)) (htest : taken = true ↔ c) :
    ∃ t, exec i s = .next t ∧ OnlyPc s t ∧
      t.pc.toNat = if c then (s.pc.toNat + 2) % 4096 else s.pc.toNat := by
  refine ⟨_, h, onlyPc_skipIf s taken, ?_⟩
  rw [State.skipIf_pc_toNat]
  exact if_congr htest rfl rfl

theorem beq_iff_toNat_eq (a b : Byte) : (a == b) = true ↔ a.toNat = b.toNat :=
  beq_iff_eq.trans BitVec.toNat_inj.symm

theorem bne_iff_not_toNat_eq (a b : Byte) : (a != b) = true ↔ ¬ a.toNat = b.toNat :=
  bne_iff_ne.trans (not_congr BitVec.toNat_inj.symm)

/-- Settles O31: the four skips differ in their test only. -/
theorem skipsAddTwoExactlyOnTheirCondition : Obligations.SkipsAddTwoExactlyOnTheirCondition := by
  intro x y nn s
  refine ⟨⟨decodeWord_encode (i := .skipEqImm x nn) rfl, decodeWord_encode (i := .skipNeImm x nn) rfl,
    decodeWord_encode (i := .skipEqReg x y) rfl, decodeWord_encode (i := .skipNeReg x y) rfl⟩, ?_, ?_, ?_, ?_⟩
  · exact skip_of_test rfl (beq_iff_toNat_eq _ _)
  · have hskip := skip_of_test (i := .skipNeImm x nn) (s := s) rfl (bne_iff_not_toNat_eq _ _)
    rwa [ite_not] at hskip
  · exact skip_of_test rfl (beq_iff_toNat_eq _ _)
  · have hskip := skip_of_test (i := .skipNeReg x y) (s := s) rfl (bne_iff_not_toNat_eq _ _)
    rwa [ite_not] at hskip

/-! ### Every instruction -/

/-- Settles O18: a return answers a next state whether or not it underflows, this hardware's draw never faults, and
every other instruction is written as a next state. -/
theorem everyInstructionAnswersANextState : Obligations.EveryInstructionAnswersANextState := by
  intro i s
  cases i with
  | ret =>
    rcases returnWith_cases Params.hardware s with ⟨-, hn⟩ | ⟨a, -, hn⟩
    · exact ⟨_, hn⟩
    · exact ⟨_, hn⟩
  | draw x y n => exact ⟨_, execDraw_eq x y n s⟩
  | _ => exact ⟨_, rfl⟩

end Sys2Proof.Machine
end

section
/-! SUPPORT. set-imm and add-imm (spec 42_immediate_index.md R140, R141): one write of V[x], which no other piece of
state sees. -/

namespace Sys2Proof.Machine

/-- The frame of a write of one general register (10_state.md R11). -/
theorem onlyRegs_writeReg (s : State) (x : Reg) (b : Byte) : OnlyRegs [x] s (s.writeReg x b) :=
  ⟨fun _ hr => s.readReg_writeReg_ne b (List.ne_of_not_mem_cons hr), rfl, rfl, rfl, rfl, rfl, rfl, rfl, fun _ => rfl⟩

/-- The sum that a register keeps is the exact sum modulo 256. -/
theorem wrappedSum_toNat (a b : Byte) : (wrappedSum a b).toNat = (a.toNat + b.toNat) % 256 :=
  BitVec.toNat_ofNat _ _

/-- Settles O37: set-imm is one write of V[x]. -/
theorem setImmLoadsTheImmediate : Obligations.SetImmLoadsTheImmediate := fun x nn s =>
  ⟨decodeWord_encode (i := .setImm x nn) rfl, _, rfl, s.readReg_writeReg_same x nn, onlyRegs_writeReg s x nn⟩

/-- Settles O38: add-imm is one write of V[x] too, so VF is written only as the destination. -/
theorem addImmWrapsWithoutFlag : Obligations.AddImmWrapsWithoutFlag := by
  intro x nn s
  refine ⟨decodeWord_encode (i := .addImm x nn) rfl, _, rfl, ?_, fun hx => ?_, onlyRegs_writeReg s x _⟩
  · rw [State.readReg_writeReg_same, wrappedSum_toNat]
  · exact s.readReg_writeReg_ne _ hx.symm

end Sys2Proof.Machine
end

section
/-! SUPPORT. The register-to-register ALU instructions (spec 43_alu.md R150 to R155): one write of V[x], and for
add-carry a second write, of VF. -/

namespace Sys2Proof.Machine

/-! ### move, or, and, xor -/

/-- An instruction that is one write of V[x], with the written byte given bit by bit (R151 to R153). -/
theorem exec_writesBits {i : Instr} {s : State} {x : Reg} {b : Byte} {bit : Nat → Bool}
    (h : exec i s = .next (s.writeReg x b)) (hbit : ∀ k, b.getLsbD k = bit k) :
    ∃ t, exec i s = .next t ∧ OnlyRegs [x] s t ∧ ∀ k, (t.readReg x).getLsbD k = bit k := by
  refine ⟨_, h, onlyRegs_writeReg s x b, fun k => ?_⟩
  rw [State.readReg_writeReg_same, hbit]

/-- Settles O40: each of the four is one write of V[x], so VF changes only as the destination (R154). -/
theorem logicWritesOnlyItsDestination : Obligations.LogicWritesOnlyItsDestination := by
  intro x y s
  refine ⟨⟨decodeWord_encode (i := .move x y) rfl, decodeWord_encode (i := .or x y) rfl,
    decodeWord_encode (i := .and x y) rfl, decodeWord_encode (i := .xor x y) rfl⟩, ?_, ?_, ?_, ?_⟩
  · exact ⟨_, rfl, s.readReg_writeReg_same x _, onlyRegs_writeReg s x _⟩
  · exact exec_writesBits rfl fun _ => BitVec.getLsbD_or
  · exact exec_writesBits rfl fun _ => BitVec.getLsbD_and
  · exact exec_writesBits rfl fun _ => BitVec.getLsbD_xor

/-! ### add-carry -/

/-- The frame of two writes of general registers, one after the other (10_state.md R11). -/
theorem onlyRegs_writeReg_writeReg (s : State) (x r : Reg) (a b : Byte) :
    OnlyRegs [x, r] s ((s.writeReg x a).writeReg r b) := by
  refine ⟨fun q hq => ?_, rfl, rfl, rfl, rfl, rfl, rfl, rfl, fun _ => rfl⟩
  have hx : q ≠ x := List.ne_of_not_mem_cons hq
  have hr : q ≠ r := List.ne_of_not_mem_cons (List.not_mem_of_not_mem_cons hq)
  rw [State.readReg_writeReg_ne _ b hr, State.readReg_writeReg_ne s a hx]

/-- The carry is 1 exactly when the exact sum does not fit in a byte. -/
theorem carryFlag_toNat (a b : Byte) : (carryFlag a b).toNat = if 256 ≤ a.toNat + b.toNat then 1 else 0 := by
  by_cases hcarry : 256 ≤ a.toNat + b.toNat
  · simp [carryFlag, exactSum, flagByte, hcarry]
  · simp [carryFlag, exactSum, flagByte, hcarry]

/-- Settles O41: VF is written last, so it ends as the carry also when x = 0xF; for another x that second write leaves
the sum in V[x]. -/
theorem addCarryReportsTheCarry : Obligations.AddCarryReportsTheCarry := by
  intro x y s
  refine ⟨decodeWord_encode (i := .addCarry x y) rfl, _, rfl, ?_, fun hx => ?_,
    onlyRegs_writeReg_writeReg s x regF _ _⟩
  · rw [State.readReg_writeReg_same, carryFlag_toNat]
  · rw [State.readReg_writeReg_ne _ _ hx, State.readReg_writeReg_same, wrappedSum_toNat]

end Sys2Proof.Machine
end

section
/-! SUPPORT. The state a draw leaves when it raises no fault (spec 44_display.md R171 to R175), on any grid and for every
edge policy: each pixel, VF, dirty and the frame. -/

namespace Sys2Proof.Machine

/-- The state after the draw loop, with VF and dirty written (R171, R175). -/
def State.drawn (p : Params) (x y : Reg) (n : Nibble) (s : State) : State :=
  (s.writeReg regF (plotAll p s.fb (drawBits p x y n s)).vf).setFb (plotAll p s.fb (drawBits p x y n s)).fb.markDirty

/-- Some pixel takes a set bit that meets a 1: one read before the draw, or one left by an earlier set bit (R174 with
R171 corner case f). -/
def SpriteCollides (p : Params) (s : State) (x y : Reg) (n : Nibble) : Prop :=
  ∃ px py, px < p.fbWidth ∧ py < p.fbHeight ∧ 1 ≤ spriteHitCount p s x y n px py ∧
    (s.fb.get px py = true ∨ 2 ≤ spriteHitCount p s x y n px py)

variable {p : Params} {x y : Reg} {n : Nibble} {s : State}

/-! ### When a draw leaves it -/

theorem exec_draw (x y : Reg) (n : Nibble) (s : State) : exec (.draw x y n) s = .next (s.drawn Params.hardware x y n) :=
  execDraw_eq x y n s

/-- A draw that passes the edge check of the Fault policy raises nothing (R172). -/
theorem drawWith_of_edge_passes (hedge : p.edgePolicy = .fault → ¬ SpriteOffEdge p s x y n) :
    drawWith p x y n s = .next (s.drawn p x y n) := by
  rcases drawWith_cases p x y n s with ⟨hpolicy, hoff, -⟩ | ⟨-, hnext⟩
  · exact absurd ((offEdge_drawBits_iff p x y n s).1 hoff) (hedge hpolicy)
  · exact hnext

/-- A draw that does not pass it raises DrawOutOfRange and writes nothing else (R172, R191). -/
theorem drawWith_of_offEdge (hpolicy : p.edgePolicy = .fault) (hoff : SpriteOffEdge p s x y n) :
    drawWith p x y n s = .next (s.setFault (some .drawOutOfRange)) := by
  rcases drawWith_cases p x y n s with ⟨-, -, hraise⟩ | ⟨hpass, -⟩
  · exact hraise
  · have hbits := (offEdge_drawBits_iff p x y n s).2 hoff
    rw [hpass hpolicy] at hbits
    cases hbits

/-! ### Dirty, VF and the frame -/

@[simp] theorem State.drawn_dirty : (s.drawn p x y n).fb.dirty = true := rfl

@[simp] theorem State.drawn_fault : (s.drawn p x y n).fault = s.fault := rfl

theorem State.readReg_drawn_regF : (s.drawn p x y n).readReg regF = (plotAll p s.fb (drawBits p x y n s)).vf :=
  s.readReg_writeReg_same regF _

/-- VF holds a flag after a draw, so it is 0 when it is not 1 (10_state.md R21). -/
theorem State.readReg_drawn_eq_zero (h : ¬ (s.drawn p x y n).readReg regF = 0x01#8) :
    (s.drawn p x y n).readReg regF = 0x00#8 := by
  rw [State.readReg_drawn_regF, plotAll_eq] at h ⊢
  obtain ⟨b, hb⟩ := vf_plot_fold_is_flag (c := ⟨s.fb, flagByte false⟩) ⟨false, rfl⟩ (drawTargets p (drawBits p x y n s))
  cases b with
  | true => exact absurd hb h
  | false => exact hb

/-- A draw writes no register but VF, and outside the registers only the framebuffer (R171, R173). -/
theorem State.onlyDisplayAndRegs_drawn : OnlyDisplayAndRegs [regF] s (s.drawn p x y n) :=
  ⟨fun _ hr => s.readReg_writeReg_ne _ (List.ne_of_not_mem_cons hr), rfl, rfl, rfl, rfl, rfl, rfl, fun _ => rfl⟩

/-! ### The pixels, and what VF tells of them -/

theorem Framebuffer.Ok.drawn (hgrid : s.fb.Ok p) : (s.drawn p x y n).fb.Ok p :=
  (hgrid.plotAll (drawBits p x y n s)).of_pix (Framebuffer.markDirty_pix _)

/-- The targets of a draw that passes the edge check are pixels of the grid (R172). -/
theorem drawTargets_drawBits_inGrid (hp : p.Valid) (hedge : p.edgePolicy = .fault → ¬ SpriteOffEdge p s x y n) :
    ∀ t ∈ drawTargets p (drawBits p x y n s), t.1 < p.fbWidth ∧ t.2 < p.fbHeight :=
  drawTargets_inGrid hp _ fun hpolicy =>
    Bool.eq_false_iff.2 fun hoff => hedge hpolicy ((offEdge_drawBits_iff p x y n s).1 hoff)

/-- A pixel after a draw: toggled once for each target that it is (R171). -/
theorem State.get_drawn (hp : p.Valid) (hgrid : s.fb.Ok p) (hedge : p.edgePolicy = .fault → ¬ SpriteOffEdge p s x y n)
    (px py : Nat) : (s.drawn p x y n).fb.get px py =
      (s.fb.get px py ^^ decide ((drawTargets p (drawBits p x y n s)).count (px, py) % 2 = 1)) :=
  get_plot_fold (c := ⟨s.fb, flagByte false⟩) hgrid _ (drawTargets_drawBits_inGrid hp hedge) px py

/-- VF after a draw is 1 iff some set bit meets a 1 (R174). -/
theorem State.readReg_drawn_eq_one_iff (hp : p.Valid) (hgrid : s.fb.Ok p)
    (hedge : p.edgePolicy = .fault → ¬ SpriteOffEdge p s x y n) :
    (s.drawn p x y n).readReg regF = 0x01#8 ↔ SpriteCollides p s x y n := by
  have hin := drawTargets_drawBits_inGrid hp hedge
  rw [State.readReg_drawn_regF, plotAll_eq, vf_plot_fold_iff (c := ⟨s.fb, flagByte false⟩) hgrid rfl _ hin]
  constructor
  · rintro ⟨⟨px, py⟩, hmem, hmeets⟩
    obtain ⟨hx, hy⟩ := hin _ hmem
    rw [← List.one_le_count_iff] at hmem
    rw [count_drawTargets p x y n s hx hy] at hmem hmeets
    exact ⟨px, py, hx, hy, hmem, hmeets⟩
  · rintro ⟨px, py, hx, hy, hhit, hmeets⟩
    rw [← count_drawTargets p x y n s hx hy] at hhit hmeets
    exact ⟨(px, py), List.one_le_count_iff.1 hhit, hmeets⟩

/-! ### The statements -/

/-- Settles O60: the targets that are a pixel are counted by the set bits that land on it. -/
theorem drawTogglesOncePerSetBitOnAnyGrid : Obligations.DrawTogglesOncePerSetBitOnAnyGrid := by
  intro p x y n s hp hgrid hedge
  have hvf : (s.drawn p x y n).readReg regF = 0x01#8 ↔ SpriteCollides p s x y n :=
    State.readReg_drawn_eq_one_iff hp hgrid hedge
  refine ⟨s.drawn p x y n, drawWith_of_edge_passes hedge, hgrid.drawn, fun px py hx hy => ?_, hvf.2,
    fun hno => State.readReg_drawn_eq_zero (mt hvf.1 hno), rfl, State.onlyDisplayAndRegs_drawn⟩
  rw [State.get_drawn hp hgrid hedge, count_drawTargets p x y n s hx hy]

/-- Settles O47: the edge check of the draw is `SpriteOffEdge`. -/
theorem drawUnderFaultPolicyIsPrecise : Obligations.DrawUnderFaultPolicyIsPrecise := fun _ _ _ _ _ hpolicy =>
  ⟨fun hoff => drawWith_of_offEdge hpolicy hoff,
    fun hin => ⟨_, drawWith_of_edge_passes fun _ => hin, State.drawn_fault, State.drawn_dirty⟩⟩

/-- Settles O45: a sprite of no rows has no set bit, so the loop leaves the pixels and VF as it begins with them. -/
theorem drawOfNoRowsStillSetsDirty : Obligations.DrawOfNoRowsStillSetsDirty := by
  intro x y s
  have hbits : drawBits Params.hardware x y 0x0#4 s = [] := rfl
  refine ⟨_, exec_draw x y 0x0#4 s, ?_, rfl, ?_, State.onlyDisplayAndRegs_drawn⟩
  · rw [State.drawn, hbits]
    rfl
  · rw [State.readReg_drawn_regF, hbits]
    rfl

end Sys2Proof.Machine
end

section
/-! SUPPORT. Draws on a grid of at least 8 by n, as this hardware's is, on which no two set bits of a sprite share a pixel
(spec 44_display.md R171 corner case f, R172, R174). -/

namespace Sys2Proof.Machine

variable {p : Params} {x y : Reg} {n : Nibble} {s : State}

/-! ### One set bit a pixel -/

/-- Clip and Fault move no coordinate (R172). -/
theorem eq_of_drawTarget_eq_some {c t : Nat × Nat} (hpolicy : p.edgePolicy ≠ .wrap) (h : drawTarget p c = some t) :
    c = t := by
  cases he : p.edgePolicy with
  | wrap => exact absurd he hpolicy
  | clip =>
    simp only [drawTarget, he] at h
    split at h
    · cases h
    · exact Option.some.inj h
  | fault =>
    simp only [drawTarget, he] at h
    exact Option.some.inj h

/-- With W >= 8 and H >= n no two set bits of one draw share a pixel, whatever the edge policy. -/
theorem drawTargets_drawBits_nodup (hwidth : 8 ≤ p.fbWidth) (hheight : n.toNat ≤ p.fbHeight) :
    (drawTargets p (drawBits p x y n s)).Nodup := by
  by_cases hpolicy : p.edgePolicy = .wrap
  · exact drawTargets_wrap_nodup hpolicy hwidth _ _ _ _ _ _ hheight
  · refine List.Nodup.filterMap (fun c d t hc hd => ?_) (spriteBits_nodup _ _ _ _ _ _)
    exact (eq_of_drawTarget_eq_some hpolicy hc).trans (eq_of_drawTarget_eq_some hpolicy hd).symm

theorem one_le_spriteHitCount_iff {px py : Nat} (hx : px < p.fbWidth) (hy : py < p.fbHeight) :
    1 ≤ spriteHitCount p s x y n px py ↔ SpriteHits p s x y n px py := by
  rw [← count_drawTargets p x y n s hx hy, spriteHits_iff_mem p x y n s hx hy]
  exact List.one_le_count_iff

theorem spriteHitCount_le_one (hwidth : 8 ≤ p.fbWidth) (hheight : n.toNat ≤ p.fbHeight) {px py : Nat}
    (hx : px < p.fbWidth) (hy : py < p.fbHeight) : spriteHitCount p s x y n px py ≤ 1 := by
  rw [← count_drawTargets p x y n s hx hy]
  exact List.nodup_iff_count_le_one.1 (drawTargets_drawBits_nodup hwidth hheight) _

/-! ### Pixels and VF -/

/-- A pixel is toggled when a set bit lands on it, and else kept (R171). -/
theorem State.get_drawn_of_fits (hp : p.Valid) (hwidth : 8 ≤ p.fbWidth) (hheight : n.toNat ≤ p.fbHeight)
    (hgrid : s.fb.Ok p) (hedge : p.edgePolicy = .fault → ¬ SpriteOffEdge p s x y n) {px py : Nat}
    (hx : px < p.fbWidth) (hy : py < p.fbHeight) :
    (SpriteHits p s x y n px py → (s.drawn p x y n).fb.get px py = !s.fb.get px py) ∧
    (¬ SpriteHits p s x y n px py → (s.drawn p x y n).fb.get px py = s.fb.get px py) := by
  have hle : spriteHitCount p s x y n px py ≤ 1 := spriteHitCount_le_one hwidth hheight hx hy
  rw [State.get_drawn hp hgrid hedge, count_drawTargets p x y n s hx hy, ← one_le_spriteHitCount_iff hx hy]
  constructor
  · intro hhit
    have hone : spriteHitCount p s x y n px py = 1 := by omega
    simp [hone]
  · intro hmiss
    have hzero : spriteHitCount p s x y n px py = 0 := by omega
    simp [hzero]

/-- Without shared pixels a set bit meets a 1 only where the pixel read 1 before the draw (R174). -/
theorem spriteCollides_iff_of_fits (hwidth : 8 ≤ p.fbWidth) (hheight : n.toNat ≤ p.fbHeight) :
    SpriteCollides p s x y n ↔
      ∃ px py, px < p.fbWidth ∧ py < p.fbHeight ∧ SpriteHits p s x y n px py ∧ s.fb.get px py = true := by
  refine exists_congr fun px => exists_congr fun py => and_congr_right fun hx => and_congr_right fun hy => ?_
  have hle : spriteHitCount p s x y n px py ≤ 1 := spriteHitCount_le_one hwidth hheight hx hy
  rw [one_le_spriteHitCount_iff hx hy]
  exact and_congr_right fun _ => or_iff_left (by omega)

/-- Settles O48: no two set bits share a pixel, so a pixel is toggled once or not at all. -/
theorem drawUnderEveryEdgePolicy : Obligations.DrawUnderEveryEdgePolicy := by
  intro p x y n s hp hwidth hheight hgrid hedge
  refine ⟨s.drawn p x y n, drawWith_of_edge_passes hedge, hgrid.drawn,
    fun px py hx hy => State.get_drawn_of_fits hp hwidth hheight hgrid hedge hx hy, ?_, rfl,
    State.onlyDisplayAndRegs_drawn⟩
  exact (State.readReg_drawn_eq_one_iff hp hgrid hedge).trans (spriteCollides_iff_of_fits hwidth hheight)

/-! ### This hardware -/

theorem hardware_edge_passes : Params.hardware.edgePolicy = .fault → ¬ SpriteOffEdge Params.hardware s x y n := nofun

theorem nibble_le_hardware_fbHeight (n : Nibble) : n.toNat ≤ Params.hardware.fbHeight := by
  have hn : n.toNat < 16 := n.isLt
  exact hn.le.trans (by decide)

theorem State.get_drawn_hardware (hgrid : s.fb.Ok Params.hardware) {px py : Nat} (hx : px < 64) (hy : py < 32) :
    (SpriteHits Params.hardware s x y n px py → (s.drawn Params.hardware x y n).fb.get px py = !s.fb.get px py) ∧
    (¬ SpriteHits Params.hardware s x y n px py → (s.drawn Params.hardware x y n).fb.get px py = s.fb.get px py) :=
  State.get_drawn_of_fits hardware_valid (by decide) (nibble_le_hardware_fbHeight n) hgrid hardware_edge_passes hx hy

theorem State.readReg_drawn_hardware_eq_one_iff (hgrid : s.fb.Ok Params.hardware) :
    (s.drawn Params.hardware x y n).readReg regF = 0x01#8 ↔
      ∃ px py, px < 64 ∧ py < 32 ∧ SpriteHits Params.hardware s x y n px py ∧ s.fb.get px py = true :=
  (State.readReg_drawn_eq_one_iff hardware_valid hgrid hardware_edge_passes).trans
    (spriteCollides_iff_of_fits (by decide) (nibble_le_hardware_fbHeight n))

/-- Settles O43: this hardware's grid is wide and high enough for every sprite. -/
theorem drawXorsTheSpriteAndReportsCollision : Obligations.DrawXorsTheSpriteAndReportsCollision := by
  intro x y n s hgrid
  have hvf := State.readReg_drawn_hardware_eq_one_iff (x := x) (y := y) (n := n) hgrid
  exact ⟨_, exec_draw x y n s, hgrid.drawn, fun px py => State.get_drawn_hardware hgrid, hvf.2,
    fun hno => State.readReg_drawn_eq_zero (mt hvf.1 hno), rfl, State.onlyDisplayAndRegs_drawn⟩

end Sys2Proof.Machine
end

section
/-! SUPPORT. What a draw reads (spec 44_display.md R173), and the same draw done twice (R176). -/

namespace Sys2Proof.Machine

variable {p : Params} {x y : Reg} {n : Nibble} {s u : State}

/-! ### What a draw reads -/

/-- The set bits of a sprite are read off V[x], V[y], I and the n bytes from I on (R171, R173). -/
theorem drawBits_congr (hx : u.readReg x = s.readReg x) (hy : u.readReg y = s.readReg y) (hi : u.i = s.i)
    (hm : ∀ r, r < n.toNat → u.mem.read (s.i.toNat + r) p.memSize = s.mem.read (s.i.toNat + r) p.memSize) :
    drawBits p x y n u = drawBits p x y n s := by
  simp only [drawBits, spriteBits, hx, hy, hi]
  refine List.flatMap_congr fun r hr => ?_
  simp only [rowBits, hm r (List.mem_range.1 hr)]

/-- A draw carries along a memory that gives it the same set bits. -/
theorem State.drawn_setMem {m : Memory} (hbits : drawBits p x y n (s.setMem m) = drawBits p x y n s) :
    (s.setMem m).drawn p x y n = (s.drawn p x y n).setMem m := by
  rw [State.drawn, hbits]
  rfl

/-- Settles O44: the set bits that the loop plots depend on no other byte. -/
theorem drawReadsOnlyTheSpriteBytes : Obligations.DrawReadsOnlyTheSpriteBytes := by
  intro x y n s t m hdraw hbytes
  cases (exec_draw x y n s).symm.trans hdraw
  have hbits : drawBits Params.hardware x y n (s.setMem m) = drawBits Params.hardware x y n s := by
    refine drawBits_congr rfl rfl rfl fun r hr => ?_
    calc m.read (s.i.toNat + r)
      _ = m.read ((s.i.toNat + r) % memSize) := (Memory.read_mod m _).symm
      _ = s.mem.read ((s.i.toNat + r) % memSize) := hbytes r hr
      _ = s.mem.read (s.i.toNat + r) := Memory.read_mod s.mem _
  exact ⟨(exec_draw x y n (s.setMem m)).trans (congrArg Host.Outcome.next (State.drawn_setMem hbits)), rfl, rfl⟩

/-! ### Drawing twice -/

theorem Framebuffer.get_of_pix_eq {f g : Framebuffer} (h : f.pix = g.pix) (px py : Nat) : f.get px py = g.get px py := by
  rw [Framebuffer.get, h, Framebuffer.get]

/-- Two draws of the same set bits pass the edge check alike (R172). -/
theorem spriteOffEdge_congr (hbits : drawBits p x y n u = drawBits p x y n s) :
    SpriteOffEdge p u x y n ↔ SpriteOffEdge p s x y n := by
  rw [← offEdge_drawBits_iff, ← offEdge_drawBits_iff, hbits]

/-- The same set bits plotted a second time toggle every pixel back, on any grid (R176). -/
theorem State.pix_drawn_twice (hp : p.Valid) (hgrid : s.fb.Ok p)
    (hedge : p.edgePolicy = .fault → ¬ SpriteOffEdge p s x y n) (hpix : u.fb.pix = (s.drawn p x y n).fb.pix)
    (hbits : drawBits p x y n u = drawBits p x y n s) : (u.drawn p x y n).fb.pix = s.fb.pix := by
  have hgridu : u.fb.Ok p := hgrid.drawn.of_pix hpix
  have hedgeu : p.edgePolicy = .fault → ¬ SpriteOffEdge p u x y n := by rwa [spriteOffEdge_congr hbits]
  refine Framebuffer.pix_ext hgridu.drawn hgrid fun px py _ _ => ?_
  rw [State.get_drawn hp hgridu hedgeu, Framebuffer.get_of_pix_eq hpix, State.get_drawn hp hgrid hedge, hbits,
    Bool.xor_assoc, Bool.xor_self, Bool.xor_false]

/-- Under Wrap every set bit of a sprite lands on a pixel of the grid (R172). -/
theorem exists_spriteHits_iff (x y : Reg) (n : Nibble) (s : State) :
    (∃ px py, px < 64 ∧ py < 32 ∧ SpriteHits Params.hardware s x y n px py) ↔
      ∃ k, k < n.toNat ∧ ∃ b, b < 8 ∧ (s.mem.read (s.i.toNat + k)).getLsbD b = true := by
  constructor
  · rintro ⟨px, py, -, -, k, hk, b, -, hbit, -⟩
    exact ⟨k, hk, 7 - b, by omega, hbit⟩
  · rintro ⟨k, hk, b, hb, hbit⟩
    have hbit' : spriteHasBit Params.hardware s k (7 - b) = true := by
      rw [← Nat.sub_sub_self (Nat.le_of_lt_succ hb)] at hbit
      exact hbit
    exact ⟨_, _, Nat.mod_lt _ (by decide), Nat.mod_lt _ (by decide), k, hk, 7 - b, by omega, hbit', rfl⟩

/-- Settles O46: the second draw has the first one's set bits. On a grid that was all 0 the pixels that read 1 are those
the first draw toggled, which are all that a set bit lands on. -/
theorem drawingTwiceRestoresThePixels : Obligations.DrawingTwiceRestoresThePixels := by
  intro x y n s t u hgrid hdraw hpix hx hy hi hmem
  cases (exec_draw x y n s).symm.trans hdraw
  have hbits : drawBits Params.hardware x y n u = drawBits Params.hardware x y n s :=
    drawBits_congr hx hy hi fun r _ => hmem _
  have hvf := State.readReg_drawn_hardware_eq_one_iff (x := x) (y := y) (n := n) (hgrid.drawn.of_pix hpix)
  refine ⟨_, exec_draw x y n u, State.pix_drawn_twice hardware_valid hgrid hardware_edge_passes hpix hbits, hvf,
    fun hblank => ?_⟩
  rw [hvf, ← exists_spriteHits_iff x y n s]
  refine exists_congr fun px => exists_congr fun py => and_congr_right fun hpx => and_congr_right fun hpy => ?_
  have hsame : SpriteHits Params.hardware u x y n px py ↔ SpriteHits Params.hardware s x y n px py := by
    rw [spriteHits_iff_mem _ x y n u hpx hpy, spriteHits_iff_mem _ x y n s hpx hpy, hbits]
  rw [hsame, Framebuffer.get_of_pix_eq hpix]
  refine and_iff_left_of_imp fun hhit => ?_
  rw [(State.get_drawn_hardware hgrid hpx hpy).1 hhit, hblank px py hpx hpy, Bool.not_false]

end Sys2Proof.Machine
end

section
/-! SUPPORT. The field fault (spec 60_exceptions.md R190, R193): which instruction raises, and what the host's
operations leave of a recorded fault. -/

namespace Sys2Proof.Machine

/-! ### What an instruction raises -/

/-- Settles O23: of the forms that an instruction can leave, the underflow alone writes fault. -/
theorem onlyReturnRaisesDuringExecute : Obligations.OnlyReturnRaisesDuringExecute := by
  intro i s t h
  cases execForm_of_next h with
  | underflow => exact .inr ⟨rfl, rfl⟩
  | skip taken _ => exact .inl (s.skipIf_fault taken _)
  | writesVx | addCarry | jump | call | ret | setIndex | clearScreen | draw | unrecognised => exact .inl rfl

/-! ### What the host's operations leave of the fault -/

@[simp] theorem State.flushed_fault (s : State) : s.flushed.fault = s.fault := by
  unfold State.flushed
  split <;> rfl

@[simp] theorem State.ticked_fault (s : State) : s.ticked.fault = s.fault := by
  unfold State.ticked
  split <;> rfl

/-- A load that answers a state has written memory and nothing else (70_reset_and_hazards.md R214, R215). -/
theorem eq_setMem_of_loadWith_next {p : Params} {image : List Byte} {s t : State} (h : loadWith p image s = .next t) :
    t = s.setMem (s.mem.writeBytes p.loadOffset.toNat image p.memSize) := by
  unfold loadWith at h
  split at h
  · cases h
  · cases h; rfl

/-- A pixel write that answers a state has written the framebuffer and nothing else (70_reset_and_hazards.md R219). -/
theorem eq_setFb_of_fbSetWith_next {p : Params} {px py : Nat} {b : Bool} {s t : State}
    (h : fbSetWith p px py b s = .next t) : t = s.setFb (s.fb.setPixel px py b) := by
  unfold fbSetWith at h
  split at h
  · cases h; rfl
  · cases h

/-- An operation other than reset that answers a state from a faulted engine keeps the record: fetch and execute
answer none, and the other operations do not write fault (R190). -/
theorem hostStep_keeps_fault {o : HostOp} {s t : State} {k : Fault} (hk : s.fault = some k) (ho : o ≠ .reset)
    (h : hostStep o s = .next t) : t.fault = s.fault := by
  cases o with
  | reset => exact absurd rfl ho
  | fetch => cases (fetchWith_of_faulted hk _).symm.trans h
  | execute => cases (execute_of_faulted hk).symm.trans h
  | load image => rw [eq_setMem_of_loadWith_next h, State.setMem_fault]
  | flush => cases h; exact s.flushed_fault
  | tickTimers => cases h; exact s.ticked_fault
  | fbSet px py b => rw [eq_setFb_of_fbSetWith_next h, State.setFb_fault]

/-- Settles O12: every other operation keeps the record, and reset answers the reset state. -/
theorem onlyResetClearsTheFault : Obligations.OnlyResetClearsTheFault :=
  ⟨fun _ _ _ _ hk ho h => (hostStep_keeps_fault hk ho h).trans hk, fun _ => rfl, rfl⟩

end Sys2Proof.Machine
end

section
/-! SUPPORT. What the host's operations do (spec 70_reset_and_hazards.md R214 to R219): one equation per operation,
then the loads, flushes, ticks and pixel writes, and the pass of the driver's loop. -/

namespace Sys2Proof.Machine

/-! ### Load (R213 to R215) -/

@[simp] theorem imageLimit_hardware : imageLimit Params.hardware = 3584 := rfl

theorem hostStep_load_of_le {image : List Byte} (hfit : image.length ≤ 3584) (s : State) :
    hostStep (.load image) s = .next (s.setMem (s.mem.writeBytes 0x200 image)) :=
  if_neg (Nat.not_lt.2 hfit)

theorem hostStep_load_of_gt {image : List Byte} (hlong : 3584 < image.length) (s : State) :
    hostStep (.load image) s = .refused .imageTooLong :=
  if_pos hlong

/-- Inside the written range memory reads the bytes written. -/
theorem Memory.read_writeBytes_inside {m : Memory} (h : m.wf = true) {a : Nat} {bs : List Byte}
    (hfit : a + bs.length ≤ memSize) {k : Nat} (hk : k < bs.length) :
    some ((m.writeBytes a bs).read (a + k)) = bs[k]? := by
  rw [Memory.read_writeBytes h a bs hfit (a + k) (by omega), if_pos (Nat.le_add_right a k), Nat.add_sub_cancel_left]
  simp [hk]

/-- Outside the written range memory reads as before. -/
theorem Memory.read_writeBytes_outside {m : Memory} (h : m.wf = true) {a : Nat} {bs : List Byte}
    (hfit : a + bs.length ≤ memSize) {c : Nat} (hc : c < memSize) (hout : c < a ∨ a + bs.length ≤ c) :
    (m.writeBytes a bs).read c = m.read c := by
  rw [Memory.read_writeBytes h a bs hfit c hc]
  split
  · next hle => simp [List.getElem?_eq_none (show bs.length ≤ c - a by omega)]
  · rfl

/-- Settles O55: an image of at most 3584 bytes fits below MEM_SIZE, so the laws of `writeBytes` apply. -/
theorem loadWritesTheImageOrIsRefused : Obligations.LoadWritesTheImageOrIsRefused := by
  intro image s hwf
  refine ⟨fun hle => ?_, fun hlong => hostStep_load_of_gt hlong s⟩
  have hfit : 0x200 + image.length ≤ memSize := Nat.add_le_add_left hle 0x200
  exact ⟨_, hostStep_load_of_le hle s, Memory.wf_writeBytes _ _ hwf,
    fun k hk => Memory.read_writeBytes_inside hwf hfit hk,
    fun a ha hout => Memory.read_writeBytes_outside hwf hfit ha hout, rfl⟩

/-! ### Flush (R217) -/

/-- Flush leaves dirty 0 and nothing else changed: when dirty was 0, that is the state it started from. -/
theorem State.flushed_eq (s : State) : s.flushed = s.setFb { s.fb with dirty := false } := by
  unfold State.flushed
  split
  · rfl
  · next hclean =>
    have hfb : { s.fb with dirty := false } = s.fb := by rw [← Bool.eq_false_of_not_eq_true hclean]
    rw [hfb]
    rfl

/-- Settles O56: the pixels presented and kept are read off the flush's equation. -/
theorem flushPresentsAndClearsDirty : Obligations.FlushPresentsAndClearsDirty := by
  intro s
  refine ⟨s.flushed, rfl, ?_⟩
  rw [s.flushed_eq]
  exact ⟨rfl, rfl, rfl, rfl⟩

/-! ### Tick (R218) -/

/-- A tick writes at most DT. -/
theorem State.ticked_eq (s : State) : s.ticked = s.setDt s.ticked.dt := by
  unfold State.ticked
  split <;> rfl

/-- Natural subtraction stops at 0, as DT does. -/
theorem State.toNat_ticked_dt (s : State) : s.ticked.dt.toNat = s.dt.toNat - 1 := by
  unfold State.ticked
  split
  · next hpos =>
    have hone : (1#8 : Byte) ≤ s.dt := hpos
    exact BitVec.toNat_sub_of_le hone
  · next hzero =>
    rw [Nat.eq_zero_of_not_pos hzero]

/-- Settles O57: the tick's new DT, and its frame. -/
theorem tickStopsAtZero : Obligations.TickStopsAtZero :=
  fun s => ⟨s.ticked, rfl, s.toNat_ticked_dt, s.ticked_eq⟩

/-! ### The host's write of one pixel (R219) -/

/-- Settles O58: inside the grid by the law of `setPixel`, outside it the model refuses. -/
theorem fbSetWritesOnePixel : Obligations.FbSetWritesOnePixel := by
  intro px py b s hgrid
  refine ⟨?_, fun hout => if_neg hout⟩
  rintro ⟨hx, hy⟩
  refine ⟨_, if_pos ⟨hx, hy⟩, fun qx qy => ?_, rfl, hgrid.setPixel px py b, rfl⟩
  rw [State.setFb_fb, Framebuffer.get_setPixel hgrid hx hy]
  simp only [Prod.mk.injEq, eq_comm]

/-! ### A pass of the driver's loop (R216) -/

theorem driverPass_of_next {s t : State} (h : step s = .next t) (tick : Bool) :
    driverPass tick s = some (t.presented, if tick then t.flushed.ticked else t.flushed) := by
  simp only [driverPass, h]

/-- Settles O59: the pass presents what the flush of the cycle's state presents, and a tick after it writes only
DT. -/
theorem driverPassFlushesAndTicks : Obligations.DriverPassFlushesAndTicks := by
  intro tick s t h
  refine ⟨_, driverPass_of_next h tick, ?_⟩
  cases tick with
  | false =>
    simp only [Bool.false_eq_true, if_false, t.flushed_eq]
    exact ⟨rfl, rfl⟩
  | true =>
    have hdt := t.flushed.toNat_ticked_dt
    have hframe := t.flushed.ticked_eq
    rw [t.flushed_eq] at hdt hframe
    simp only [if_true, t.flushed_eq]
    exact ⟨hframe, hdt⟩

end Sys2Proof.Machine
end
